-- ==== Sys2Proof/Word.lean ====
section
/-! DEFINITION. The widths of 00_scope.md R4: `XLEN = ILEN = 32`, bytes of 8 bits (20_memory.md R30), register numbers of
5 bits (10_state.md R11). Bit 0 is the least significant bit (R5). Addition, subtraction, and, or, not on `Word` are the
`+32`, `-32`, `&`, `|`, `~` of R5. -/
namespace Sys2Proof

/-- A machine word: a register, the pc, an instruction (R4, R5). -/
abbrev Word := BitVec 32

/-- A byte of the data memory (20_memory.md R30). -/
abbrev Byte := BitVec 8

/-- A register number, a 5-bit field value: every value names one of the 32 registers (10_state.md R11). -/
abbrev Reg := BitVec 5

/-- A 6-bit `opcode` or `funct` field value (30_encoding.md R45 to R47). -/
abbrev Selector := BitVec 6

/-- Text as a list of characters: the source of the assembler and the text form of words (30_encoding.md R58, R59). -/
abbrev Text := List Char

end Sys2Proof
end

