-- ==== Sys2Proof/Config.lean ====
section
/-! DEFINITION. The implementation parameters of 00_scope.md R4 that are arguments of the model, with the defaults R4 shows.
They are fixed at launch (70_reset_and_hazards.md R109). There is no free value: no rule leaves the result of an
instruction open. -/
namespace Sys2Proof

/-- The ten selecting values that doc00 names without a number (30_encoding.md R51, decision D2).
PRESUMED (log entry 4): the defaults are the MIPS32 values, as R4 says. Opcodes 0, 2 and 3 are fixed and stand in Decode. -/
structure Numerals where
  opBeq  : Selector := 4
  opAddi : Selector := 8
  opLw   : Selector := 35
  opSw   : Selector := 43
  fnAdd  : Selector := 32
  fnSub  : Selector := 34
  fnAnd  : Selector := 36
  fnOr   : Selector := 37
  fnNor  : Selector := 39
  fnSlt  : Selector := 42
  deriving DecidableEq, Repr

/-- The I-type opcodes `OP_BEQ`, `OP_ADDI`, `OP_LW`, `OP_SW`. -/
def Numerals.iOpcodes (n : Numerals) : List Selector := [n.opBeq, n.opAddi, n.opLw, n.opSw]

/-- The function codes `FN_ADD`, `FN_SUB`, `FN_AND`, `FN_OR`, `FN_NOR`, `FN_SLT`. -/
def Numerals.functs (n : Numerals) : List Selector := [n.fnAdd, n.fnSub, n.fnAnd, n.fnOr, n.fnNor, n.fnSlt]

/-- The launch configuration (R4, R109). -/
structure Config where
  /-- `MEM_SIZE`: capacity of the data memory in bytes. -/
  memSize       : Nat := 4096
  /-- `STEP_BUDGET`; `none` is R4's default, `WORD_COUNT`. -/
  stepBudget    : Option Nat := none
  /-- `ZERO_HARDWIRED`: whether register 0 ignores writes (10_state.md R14). -/
  zeroHardwired : Bool := false
  /-- `VERBOSE`: no effect on any rule (R4). DESIGN CHOICE (log entry 7): R4 states no default, the model's is `false`. -/
  verbose       : Bool := false
  /-- The selecting values. -/
  numerals      : Numerals := {}
  deriving DecidableEq, Repr

end Sys2Proof
end

