-- ==== Sys2Proof/Syntax.lean ====
section
/-! DEFINITION. The instructions: one constructor for each of the twelve rows of spec/opcode_table.json (30_encoding.md R50,
R51). Register operands stand in the assembler's order. The two reserved spaces of R54 are no instructions; the decoder
names them. -/
namespace Sys2Proof

/-- An instruction with its operand fields. The R-type constructors keep the `shamt` field of their word: the decoder
extracts it (R48) and no instruction uses it (R53). -/
inductive Instr where
  /-- R81 -/
  | add (rd rs rt : Reg) (shamt : BitVec 5)
  /-- R82 -/
  | sub (rd rs rt : Reg) (shamt : BitVec 5)
  /-- R83 -/
  | and (rd rs rt : Reg) (shamt : BitVec 5)
  /-- R84 -/
  | or (rd rs rt : Reg) (shamt : BitVec 5)
  /-- R85 -/
  | nor (rd rs rt : Reg) (shamt : BitVec 5)
  /-- R86 -/
  | slt (rd rs rt : Reg) (shamt : BitVec 5)
  /-- R90 -/
  | beq (rs rt : Reg) (imm : BitVec 16)
  /-- R91 -/
  | addi (rt rs : Reg) (imm : BitVec 16)
  /-- R92: base `rs`, offset `imm` -/
  | lw (rt rs : Reg) (imm : BitVec 16)
  /-- R93: base `rs`, offset `imm` -/
  | sw (rt rs : Reg) (imm : BitVec 16)
  /-- R96 -/
  | j (address : BitVec 26)
  /-- R97: the opcode-3 jump, which has no mnemonic in doc00 -/
  | j3 (address : BitVec 26)
  deriving DecidableEq, Repr

end Sys2Proof
end

