-- ==== Sys2Proof/WellFormed.lean ====
section
/-! DEFINITION. The checks on data that the types alone do not make: the assembler's form of an R-type instruction
(30_encoding.md R45, R53) and the constraints of 00_scope.md R4 on the parameters. -/
namespace Sys2Proof

/-- The form the assembler emits: an R-type word has `shamt = 0` (R45, R57). Execution does not ask for it: a word with
`shamt ≠ 0` decodes and runs (R53). Operand fields need no check, their types hold exactly the field values (R11). -/
def Instr.wf : Instr → Bool
  | .add _ _ _ shamt | .sub _ _ _ shamt | .and _ _ _ shamt | .or _ _ _ shamt | .nor _ _ _ shamt | .slt _ _ _ shamt => shamt == 0
  | .beq .. | .addi .. | .lw .. | .sw .. | .j .. | .j3 .. => true

/-- R4: "the four I-type opcodes are pairwise distinct, each in 0..63 and none in {0, 2, 3}; the six function codes are
pairwise distinct, each in 0..63". The ranges are the type's. -/
abbrev Numerals.Legal (n : Numerals) : Prop :=
  n.iOpcodes.Nodup ∧ (∀ op ∈ n.iOpcodes, op ≠ 0 ∧ op ≠ 2 ∧ op ≠ 3) ∧ n.functs.Nodup

/-- R4: the largest `WORD_COUNT`, 2^30 - 1 (decision D5). -/
def maxWordCount : Nat := 2 ^ 30 - 1

/-- R4's constraints on a launch with this configuration and a program of `wordCount` words. -/
abbrev Config.Legal (c : Config) (wordCount : Nat) : Prop :=
  c.numerals.Legal ∧ c.memSize ≤ 2 ^ 32 ∧ wordCount ≤ maxWordCount

end Sys2Proof
end

