-- ==== Sys2Proof/Decode.lean ====
section
/-! DEFINITION. The decoder, a total function of the word alone (30_encoding.md R48, R50, 40_decode_dispatch.md R74, R75),
and after it the encoder (R57). An instruction has no byte order: the fetch gives one whole 32-bit value (20_memory.md R32).
The two reserved spaces are rejected by name (R54). -/
namespace Sys2Proof

/-- The eight fields of a word (R48). -/
structure Fields where
  opcode    : Selector
  rs        : Reg
  rt        : Reg
  rd        : Reg
  shamt     : BitVec 5
  funct     : Selector
  immediate : BitVec 16
  address   : BitVec 26
  deriving DecidableEq, Repr

/-- R48: "`opcode = w[31:26]`, `rs = w[25:21]`, …", with no range check. DEDUCED by the spec (decision D13, log entry 17). -/
def fields (w : Word) : Fields where
  opcode    := w.extractLsb' 26 6
  rs        := w.extractLsb' 21 5
  rt        := w.extractLsb' 16 5
  rd        := w.extractLsb' 11 5
  shamt     := w.extractLsb' 6 5
  funct     := w.extractLsb' 0 6
  immediate := w.extractLsb' 0 16
  address   := w.extractLsb' 0 26

/-- The three dispatch classes (R75). -/
inductive DispatchClass where
  | rType
  | iType
  | jType
  deriving DecidableEq, Repr

/-- R75: "opcode `0` → R-type; opcode `2` or `3` → J-type; any other value → I-type". -/
def dispatchClass (opcode : Selector) : DispatchClass :=
  if opcode = 0 then .rType
  else if opcode = 2 ∨ opcode = 3 then .jType
  else .iType

/-- What the decoder answers: an instruction, or the reserved space the word lies in (R50, R54). -/
inductive Decoded where
  | instr (i : Instr)
  /-- R87: opcode 0 and none of the six function codes -/
  | unknownFunct
  /-- R94: opcode none of 0, 2, 3 and the four I-type opcodes -/
  | unknownOpcode
  deriving DecidableEq, Repr

/-- R-type: chosen by function code alone (R75); `shamt` is not examined (R53). -/
def decodeR (n : Numerals) (f : Fields) : Decoded :=
  if f.funct = n.fnAdd then .instr (.add f.rd f.rs f.rt f.shamt)
  else if f.funct = n.fnSub then .instr (.sub f.rd f.rs f.rt f.shamt)
  else if f.funct = n.fnAnd then .instr (.and f.rd f.rs f.rt f.shamt)
  else if f.funct = n.fnOr then .instr (.or f.rd f.rs f.rt f.shamt)
  else if f.funct = n.fnNor then .instr (.nor f.rd f.rs f.rt f.shamt)
  else if f.funct = n.fnSlt then .instr (.slt f.rd f.rs f.rt f.shamt)
  else .unknownFunct

/-- I-type: chosen by opcode (R75, R89). -/
def decodeI (n : Numerals) (f : Fields) : Decoded :=
  if f.opcode = n.opBeq then .instr (.beq f.rs f.rt f.immediate)
  else if f.opcode = n.opAddi then .instr (.addi f.rt f.rs f.immediate)
  else if f.opcode = n.opLw then .instr (.lw f.rt f.rs f.immediate)
  else if f.opcode = n.opSw then .instr (.sw f.rt f.rs f.immediate)
  else .unknownOpcode

/-- J-type: opcode 2 is `j`, opcode 3 the opcode-3 jump (R51, R52). -/
def decodeJ (f : Fields) : Decoded :=
  if f.opcode = 2 then .instr (.j f.address) else .instr (.j3 f.address)

/-- R75: the class by opcode, then the instruction within the class. -/
def decode (n : Numerals) (w : Word) : Decoded :=
  let f := fields w
  match dispatchClass f.opcode with
  | .rType => decodeR n f
  | .iType => decodeI n f
  | .jType => decodeJ f

/-- The instruction a decoding holds, if it holds one. -/
def Decoded.instr? : Decoded → Option Instr
  | .instr i => some i
  | .unknownFunct | .unknownOpcode => none

/-- The decoder at the numbering of spec/opcode_table.json, with R4's default numerals. Every row has 32 bits, one word, and
`IMEM` holds whole words, so there is no layout in bytes (20_memory.md R32). -/
def decodeTableWord (nbits w : Nat) : Option Instr :=
  (decode {} (BitVec.ofNat 32 (w % 2 ^ nbits))).instr?

/-- R45, R57: the R-type word of these field values. -/
def packR (rs rt rd : Reg) (shamt : BitVec 5) (funct : Selector) : Word :=
  (rs.setWidth 32 <<< 21) ||| (rt.setWidth 32 <<< 16) ||| (rd.setWidth 32 <<< 11) ||| (shamt.setWidth 32 <<< 6) ||| funct.setWidth 32

/-- R57: `encR`, which writes `shamt = 0`. -/
def encR (funct : Selector) (rs rt rd : Reg) : Word := packR rs rt rd 0 funct

/-- R57: `encI`. -/
def encI (opcode : Selector) (rs rt : Reg) (imm16 : BitVec 16) : Word :=
  (opcode.setWidth 32 <<< 26) ||| (rs.setWidth 32 <<< 21) ||| (rt.setWidth 32 <<< 16) ||| imm16.setWidth 32

/-- R57: `encJ`. -/
def encJ (opcode : Selector) (addr26 : BitVec 26) : Word :=
  (opcode.setWidth 32 <<< 26) ||| addr26.setWidth 32

/-- The opcode that selects an instruction (R51). -/
def Instr.opcode (n : Numerals) : Instr → Selector
  | .add .. | .sub .. | .and .. | .or .. | .nor .. | .slt .. => 0
  | .beq .. => n.opBeq
  | .addi .. => n.opAddi
  | .lw .. => n.opLw
  | .sw .. => n.opSw
  | .j .. => 2
  | .j3 .. => 3

/-- The word of an instruction (R51, R57). A well-formed R-type instruction has `shamt = 0` and its word is `encR`'s; the
opcode-3 jump, which the assembler does not emit (R52), has the word a host loads (R97). -/
def encode (n : Numerals) : Instr → Word
  | .add rd rs rt shamt => packR rs rt rd shamt n.fnAdd
  | .sub rd rs rt shamt => packR rs rt rd shamt n.fnSub
  | .and rd rs rt shamt => packR rs rt rd shamt n.fnAnd
  | .or rd rs rt shamt => packR rs rt rd shamt n.fnOr
  | .nor rd rs rt shamt => packR rs rt rd shamt n.fnNor
  | .slt rd rs rt shamt => packR rs rt rd shamt n.fnSlt
  | .beq rs rt imm => encI n.opBeq rs rt imm
  | .addi rt rs imm => encI n.opAddi rs rt imm
  | .lw rt rs imm => encI n.opLw rs rt imm
  | .sw rt rs imm => encI n.opSw rs rt imm
  | .j address => encJ 2 address
  | .j3 address => encJ 3 address

end Sys2Proof
end

