-- ==== Sys2Proof/Machine/State.lean ====
section
/-! DEFINITION. The state of the block, whole (10_state.md R10, R23, R24), with the launch inputs it runs on (R26), the
reasons a step can stop, and the state after reset (R27). -/
namespace Sys2Proof.Machine

/-- The run controller's status (10_state.md R23). `halted` and `aborted` are terminal. -/
inductive RunStatus where
  | running
  | halted
  | aborted
  deriving DecidableEq, Repr

/-- An event of the report port (10_state.md R24); the payloads are R24's. -/
inductive Report where
  /-- 41_rtype_alu.md R87 -/
  | unknownFunct (pc word : Word)
  /-- 42_itype.md R94 -/
  | unknownOpcode (pc word : Word)
  /-- 40_decode_dispatch.md R72 -/
  | stepBudgetExceeded (pc : Word) (executed : Nat)
  deriving DecidableEq, Repr

/-- The reasons to stop with a fault: there are none. "The block has no exceptions, no interrupts and no traps"
(60_exceptions.md R98); R99 lists every abnormal condition, and each has an effect of its own. -/
inductive Fault where
  deriving DecidableEq, Repr

/-- The reasons to refuse. -/
inductive Refusal where
  /-- An instruction without a meaning yet. Raised by nobody: every arm of `exec` has its meaning. Safe. -/
  | notModelled (mnemonic : String)
  /-- Raised by `step` in a state whose launch parameters break the constraints of 00_scope.md R4, "which every rule of this
  spec assumes": the spec gives such a launch no behaviour. Safe: the model stops (log entry 5). -/
  | launchOutOfRange
  deriving DecidableEq, Repr

/-- The data memory: the bytes that differ from what an unlisted address reads as, addresses strictly rising (`Memory.wf`). -/
abbrev Memory := List Host.Cell

/-- The whole state (10_state.md R10), with the launch inputs `IMEM` and the configuration, which no step changes
(log entry 3). -/
structure State where
  /-- the launch configuration (00_scope.md R4) -/
  config    : Config
  /-- `IMEM`, the loaded sequence of words (20_memory.md R29) -/
  imem      : List Word
  /-- `x[0]` to `x[31]` (R11) -/
  regs      : Vector Word 32
  /-- the byte offset of the instruction that executes (R17) -/
  pc        : Word
  /-- `MEM` (20_memory.md R30) -/
  mem       : Memory
  /-- instructions executed since launch (R23) -/
  executed  : Nat
  /-- the run controller's status (R23) -/
  status    : RunStatus
  /-- the report port: the event of the latest cycle, if it had one (R24) -/
  report    : Option Report
  /-- the report log of the run, oldest event first (R24, 60_exceptions.md R100) -/
  reportLog : List Report
  deriving DecidableEq, Repr

/-- The table of 10_state.md R27 with nothing preset, no program loaded, and R4's default parameters.
DESIGN CHOICE (log entries 1, 2, 8): zero registers, zero memory and the empty program are where the host's presets and
program go. -/
def State.reset : State where
  config    := {}
  imem      := []
  regs      := Vector.replicate 32 0
  pc        := 0
  mem       := []
  executed  := 0
  status    := .running
  report    := none
  reportLog := []

end Sys2Proof.Machine
end

