-- ==== Sys2Proof/Machine/Ops.lean ====
section
/-! DEFINITION. The named operations over registers, memory, pc, reports and the run controller. Taking an exception and
returning from one have no operation here because the block has neither (60_exceptions.md R98, R103, R104); what stands in
their place is `reportAndSkip`. -/
namespace Sys2Proof.Machine

/-! ### Registers and pc -/

/-- `x[i]`, register 0 like any other (10_state.md R13). -/
def State.readReg (s : State) (i : Reg) : Word := s.regs[i.toNat]'i.isLt

/-- `x[i] <- v` (10_state.md R14): every slot is written, but under `ZERO_HARDWIRED` slot 0 is not. -/
def State.writeReg (s : State) (i : Reg) (v : Word) : State :=
  if s.config.zeroHardwired = true ∧ i = 0 then s
  else { s with regs := s.regs.set i.toNat v i.isLt }

/-- `pc <- t`. -/
def State.setPc (s : State) (t : Word) : State := { s with pc := t }

/-- `pc <- pc +32 4` (R18, 40_decode_dispatch.md R78). -/
def State.advancePc (s : State) : State := s.setPc (s.pc + 4)

/-! ### Memory -/

/-- What an address that is not listed reads as: the launch byte 0 (10_state.md R27).
DESIGN CHOICE (log entry 2): doc00 gives no launch contents, 0 is the spec's decision D11. -/
def Memory.unlisted : Byte := 0

/-- The canonical form: addresses strictly rising, no entry equal to what an unlisted address reads as. -/
abbrev Memory.wf (m : Memory) : Prop :=
  m.Pairwise (fun c d => c.1 < d.1) ∧ ∀ c ∈ m, c.2 ≠ Memory.unlisted

/-- The byte at an address. -/
def Memory.read : Memory → Nat → Byte
  | [], _ => Memory.unlisted
  | c :: m, a => if c.1 = a then c.2 else Memory.read m a

/-- An entry for address `a` in front of `m`, or none if `b` is what an unlisted address reads as. -/
def Memory.put (a : Nat) (b : Byte) (m : Memory) : Memory :=
  if b = Memory.unlisted then m else (a, b) :: m

/-- `MEM[a] <- b`, keeping the canonical form. -/
def Memory.write : Memory → Nat → Byte → Memory
  | [], a, b => Memory.put a b []
  | c :: m, a, b =>
    if a < c.1 then Memory.put a b (c :: m)
    else if a = c.1 then Memory.put a b m
    else c :: Memory.write m a b

/-- The four bytes of a word, most significant first (20_memory.md R31). -/
def wordBytes (v : Word) : List Byte :=
  [v.extractLsb' 24 8, v.extractLsb' 16 8, v.extractLsb' 8 8, v.extractLsb' 0 8]

/-- `MEM[a] ‖ MEM[a+1] ‖ MEM[a+2] ‖ MEM[a+3]` (20_memory.md R31, R33). -/
def Memory.readWord (m : Memory) (a : Nat) : Word :=
  m.read a ++ m.read (a + 1) ++ m.read (a + 2) ++ m.read (a + 3)

/-- Bytes written at rising addresses from `a`. -/
def Memory.writeBytes : Memory → Nat → List Byte → Memory
  | m, _, [] => m
  | m, a, b :: bs => Memory.writeBytes (m.write a b) (a + 1) bs

/-- The four byte writes of 20_memory.md R34. -/
def Memory.writeWord (m : Memory) (a : Nat) (v : Word) : Memory := m.writeBytes a (wordBytes v)

/-- 20_memory.md R35: an access is in range when `a + 4 ≤ MEM_SIZE` over the natural numbers (decision D7, log entry 14). -/
abbrev State.inRange (s : State) (a : Word) : Prop := a.toNat + 4 ≤ s.config.memSize

/-- `MemRead(a, 4)` (20_memory.md R33): big-endian, any alignment (R36), 0 and silent out of range. -/
def State.memRead (s : State) (a : Word) : Word :=
  if s.inRange a then s.mem.readWord a.toNat else 0

/-- `MemWrite(a, 4, v)` (20_memory.md R34): big-endian, any alignment (R36), nothing and silent out of range. -/
def State.memWrite (s : State) (a : Word) (v : Word) : State :=
  if s.inRange a then { s with mem := s.mem.writeWord a.toNat v } else s

/-- The byte `MEM[a]`. Addresses `0 .. MEM_SIZE − 1` exist and no other names anything (20_memory.md R30, R39). -/
def State.memByte (s : State) (a : Nat) : Option Byte :=
  if a < s.config.memSize then some (s.mem.read a) else none

/-- What the host may read of the memory: `n` addresses from `a` on (70_reset_and_hazards.md R112). -/
def State.memRange (s : State) (a n : Nat) : List (Option Byte) := (List.range n).map fun k => s.memByte (a + k)

/-! ### Reports -/

/-- `report e` (00_scope.md R7, 10_state.md R24): the event goes to the port and into the run's log, nothing else changes. -/
def State.emit (s : State) (e : Report) : State :=
  { s with report := some e, reportLog := s.reportLog ++ [e] }

/-- "Report and skip" (41_rtype_alu.md R87, 42_itype.md R94): one event, then `pc <- pc +32 4`. -/
def State.reportAndSkip (s : State) (e : Report) : State := (s.emit e).advancePc

/-- A cycle begins with no event at the port: "at most one report event, and none in most cycles" (10_state.md R24). -/
def State.clearReport (s : State) : State := { s with report := none }

/-! ### Run controller -/

/-- `WORD_COUNT` (00_scope.md R4). -/
def State.wordCount (s : State) : Nat := s.imem.length

/-- `STEP_BUDGET`, by default `WORD_COUNT` (00_scope.md R4, 40_decode_dispatch.md R72; decision D3, log entry 11). -/
def State.stepBudget (s : State) : Nat := s.config.stepBudget.getD s.wordCount

/-- R4's constraints, which every rule of the spec assumes (log entry 5). -/
abbrev State.LaunchLegal (s : State) : Prop := s.config.Legal s.wordCount

/-- `IMEM[pc / 4]` (40_decode_dispatch.md R73). There is no such word exactly when `pc ≥ 4 × WORD_COUNT`, the halt test of
R71 (Laws: `fetchWord_eq_none_iff`). -/
def State.fetchWord (s : State) : Option Word := s.imem[s.pc.toNat / 4]?

/-- 40_decode_dispatch.md R71: `status <- HALTED`. -/
def State.halt (s : State) : State := { s with status := .halted }

/-- 40_decode_dispatch.md R72: `status <- ABORTED` and one report. -/
def State.abort (s : State) : State :=
  { s with status := .aborted }.emit (.stepBudgetExceeded s.pc s.executed)

/-- 40_decode_dispatch.md R70: `executed <- executed + 1` after the instruction. -/
def countExecuted : Host.Outcome State Fault Refusal → Host.Outcome State Fault Refusal
  | .next t => .next { t with executed := t.executed + 1 }
  | .fault f => .fault f
  | .refused r => .refused r

end Sys2Proof.Machine
end

