-- ==== Sys2Proof/Machine/Flags.lean ====
section
/-! DEFINITION. The block has no flags, condition codes or predicate registers (10_state.md R20). What it has in their
place are two conditions computed from two words: the signed comparison of `slt` and the equality of `beq`
(41_rtype_alu.md R88(d)). -/
namespace Sys2Proof.Machine

/-- `slt`: "1 if signed(x[rs]) < signed(x[rt]) else 0", as a word (41_rtype_alu.md R86). -/
def sltValue (a b : Word) : Word := if a.toInt < b.toInt then 1 else 0

/-- `beq`: all 32 bits equal (42_itype.md R90). -/
def beqTaken (a b : Word) : Bool := a == b

end Sys2Proof.Machine
end

