-- ==== Sys2Proof/Machine/Operands.lean ====
section
/-! DEFINITION. How each operand value is made from the fields (30_encoding.md R49). -/
namespace Sys2Proof.Machine

/-- `sext16(v)`: "`v` if `v < 32768`, else `v + 0xFFFF0000`" (00_scope.md R6). -/
def sext16 (v : BitVec 16) : Word :=
  if v.toNat < 32768 then v.setWidth 32 else v.setWidth 32 + 0xFFFF0000

/-- R49(a): the address of `lw` and `sw`, `x[rs] + sext16(imm)` modulo 2^32 (decision D7, log entry 14). -/
def State.effectiveAddress (s : State) (rs : Reg) (imm : BitVec 16) : Word := s.readReg rs + sext16 imm

/-- R49(b): `pc + 4 + (sext16(imm) << 2)` modulo 2^32, `pc` the address of the `beq` itself (decision D6, log entry 13). -/
def branchTarget (pc : Word) (imm : BitVec 16) : Word := pc + 4 + (sext16 imm <<< 2)

/-- R49(c): `(pc & 0xF0000000) | (address << 2)`, `pc` the address of the jump itself (43_jtype.md R95). -/
def jumpTarget (pc : Word) (address : BitVec 26) : Word := (pc &&& (0xF0000000 : Word)) ||| (address.setWidth 32 <<< 2)

end Sys2Proof.Machine
end

