-- ==== Sys2Proof/Machine/RType.lean ====
section
/-! DEFINITION. The six R-type instructions (41_rtype_alu.md R80 to R86). Sources are read before the destination is written
(R77, R115); no overflow, flag, report or exception (R88). -/
namespace Sys2Proof.Machine

/-- What the six have in common (R80): `x[rd] <- v`, then `pc <- pc +32 4`. -/
def State.writeBack (s : State) (rd : Reg) (v : Word) : Host.Outcome State Fault Refusal :=
  .next (s.writeReg rd v).advancePc

/-- R81: `x[rd] <- (x[rs] + x[rt]) mod 2^32`. -/
def execAdd (rd rs rt : Reg) (s : State) : Host.Outcome State Fault Refusal :=
  s.writeBack rd (s.readReg rs + s.readReg rt)

/-- R82: `x[rd] <- (x[rs] − x[rt]) mod 2^32`. -/
def execSub (rd rs rt : Reg) (s : State) : Host.Outcome State Fault Refusal :=
  s.writeBack rd (s.readReg rs - s.readReg rt)

/-- R83: `x[rd] <- x[rs] & x[rt]`. -/
def execAnd (rd rs rt : Reg) (s : State) : Host.Outcome State Fault Refusal :=
  s.writeBack rd (s.readReg rs &&& s.readReg rt)

/-- R84: `x[rd] <- x[rs] | x[rt]`. -/
def execOr (rd rs rt : Reg) (s : State) : Host.Outcome State Fault Refusal :=
  s.writeBack rd (s.readReg rs ||| s.readReg rt)

/-- R85: `x[rd] <- ~(x[rs] | x[rt])`. -/
def execNor (rd rs rt : Reg) (s : State) : Host.Outcome State Fault Refusal :=
  s.writeBack rd (~~~(s.readReg rs ||| s.readReg rt))

/-- R86: `x[rd] <- 1 if signed(x[rs]) < signed(x[rt]) else 0`. -/
def execSlt (rd rs rt : Reg) (s : State) : Host.Outcome State Fault Refusal :=
  s.writeBack rd (sltValue (s.readReg rs) (s.readReg rt))

end Sys2Proof.Machine
end

