-- ==== Sys2Proof/Machine/IType.lean ====
section
/-! DEFINITION. The four I-type instructions (42_itype.md R89 to R93). -/
namespace Sys2Proof.Machine

/-- R90: to the target if the two registers are equal, else `pc +32 4`; no `+4` on top of a taken branch (R78; decision D12,
log entry 16). -/
def execBeq (rs rt : Reg) (imm : BitVec 16) (s : State) : Host.Outcome State Fault Refusal :=
  if beqTaken (s.readReg rs) (s.readReg rt) then .next (s.setPc (branchTarget s.pc imm)) else .next s.advancePc

/-- R91: `x[rt] <- (x[rs] + sext16(immediate)) mod 2^32`. -/
def execAddi (rt rs : Reg) (imm : BitVec 16) (s : State) : Host.Outcome State Fault Refusal :=
  s.writeBack rt (s.readReg rs + sext16 imm)

/-- R92: `x[rt] <- MemRead(ea, 4)`; out of range the destination is written with 0 (decision D9, log entry 15). -/
def execLw (rt rs : Reg) (imm : BitVec 16) (s : State) : Host.Outcome State Fault Refusal :=
  s.writeBack rt (s.memRead (s.effectiveAddress rs imm))

/-- R93: `MemWrite(ea, 4, x[rt])`. -/
def execSw (rt rs : Reg) (imm : BitVec 16) (s : State) : Host.Outcome State Fault Refusal :=
  .next (s.memWrite (s.effectiveAddress rs imm) (s.readReg rt)).advancePc

end Sys2Proof.Machine
end

