-- ==== Sys2Proof/Machine/JType.lean ====
section
/-! DEFINITION. The two jumps (43_jtype.md R95 to R97): the pc is set directly, no register is read or written, no link. -/
namespace Sys2Proof.Machine

/-- R96: `pc <- (pc & 0xF0000000) | (address << 2)`. -/
def execJ (address : BitVec 26) (s : State) : Host.Outcome State Fault Refusal :=
  .next (s.setPc (jumpTarget s.pc address))

/-- R97: "exactly as rule R96"; "this is not MIPS `jal`" (decision D18, log entry 19). -/
def execJ3 (address : BitVec 26) (s : State) : Host.Outcome State Fault Refusal :=
  .next (s.setPc (jumpTarget s.pc address))

end Sys2Proof.Machine
end

