-- ==== Sys2Proof/Machine/Dispatch.lean ====
section
/-! DEFINITION. The meaning of each instruction, one arm per constructor (40_decode_dispatch.md R75, R76). `shamt` is used by
none (30_encoding.md R53). -/
namespace Sys2Proof.Machine

def exec (i : Instr) (s : State) : Host.Outcome State Fault Refusal :=
  match i with
  | .add rd rs rt _ => Sys2Proof.Machine.execAdd rd rs rt s
  | .sub rd rs rt _ => Sys2Proof.Machine.execSub rd rs rt s
  | .and rd rs rt _ => Sys2Proof.Machine.execAnd rd rs rt s
  | .or rd rs rt _ => Sys2Proof.Machine.execOr rd rs rt s
  | .nor rd rs rt _ => Sys2Proof.Machine.execNor rd rs rt s
  | .slt rd rs rt _ => Sys2Proof.Machine.execSlt rd rs rt s
  | .beq rs rt imm => Sys2Proof.Machine.execBeq rs rt imm s
  | .addi rt rs imm => Sys2Proof.Machine.execAddi rt rs imm s
  | .lw rt rs imm => Sys2Proof.Machine.execLw rt rs imm s
  | .sw rt rs imm => Sys2Proof.Machine.execSw rt rs imm s
  | .j address => Sys2Proof.Machine.execJ address s
  | .j3 address => Sys2Proof.Machine.execJ3 address s

end Sys2Proof.Machine
end

