-- ==== Sys2Proof/Machine/Unknown.lean ====
section
/-! DEFINITION. The two reserved spaces of 30_encoding.md R54: no trap, "report and skip". -/
namespace Sys2Proof.Machine

/-- 41_rtype_alu.md R87: `report UnknownFunct(pc, w)`, then `pc <- pc +32 4`. -/
def execUnknownFunct (w : Word) (s : State) : Host.Outcome State Fault Refusal :=
  .next (s.reportAndSkip (.unknownFunct s.pc w))

/-- 42_itype.md R94: `report UnknownOpcode(pc, w)`, then `pc <- pc +32 4`. -/
def execUnknownOpcode (w : Word) (s : State) : Host.Outcome State Fault Refusal :=
  .next (s.reportAndSkip (.unknownOpcode s.pc w))

end Sys2Proof.Machine
end

