-- ==== Sys2Proof/Machine/Cycle.lean ====
section
/-! DEFINITION. One cycle of the block (40_decode_dispatch.md R70 to R79). -/
namespace Sys2Proof.Machine

/-- The outcome of executing a fetched word: its instruction's meaning, or the effect of the reserved space it lies in
(R75, R76). The decoder reads the word and the launch numerals only (R74). -/
def execWord (w : Word) (s : State) : Host.Outcome State Fault Refusal :=
  match decode s.config.numerals w with
  | .instr i => exec i s
  | .unknownFunct => execUnknownFunct w s
  | .unknownOpcode => execUnknownOpcode w s

/-- A cycle of a run that has not ended: halt test (R71), then step guard (R72), then the instruction (R73 to R78), counted.
The halt test is the fetch having no word; the order is R70's (decision D16, log entry 12). The cycle begins with no event
at the report port. -/
def runningCycle (s : State) : Host.Outcome State Fault Refusal :=
  match s.fetchWord with
  | none => .next s.clearReport.halt
  | some w =>
    if s.stepBudget ≤ s.executed then .next s.clearReport.abort
    else countExecuted (execWord w s.clearReport)

/-- `Cycle()` of R70. A terminal status is left by no rule (10_state.md R23); its cycles have no event (log entry 6). -/
def cycle (s : State) : Host.Outcome State Fault Refusal :=
  match s.status with
  | .running => runningCycle s
  | .halted | .aborted => .next s.clearReport

end Sys2Proof.Machine
end

