-- ==== Sys2Proof/Machine/Launch.lean ====
section
/-! DEFINITION. Launch: reset plus loading (70_reset_and_hazards.md R109, 10_state.md R26, R27, R112), and the placing of one
word for the very next cycle. -/
namespace Sys2Proof.Machine

/-- The launch memory `mem0`: bytes preset one after the other from the empty memory. An address outside the memory names
nothing (20_memory.md R30) and is passed over (log entry 9). -/
def Memory.preset (memSize : Nat) (cells : List Host.Cell) : Memory :=
  cells.foldl (fun m c => if c.1 < memSize then m.write c.1 c.2 else m) []

/-- The launch registers `regs0`; "with `ZERO_HARDWIRED = true` always 0" at register 0 (R27). -/
def presetRegs (c : Config) (regs0 : Vector Word 32) : Vector Word 32 :=
  if c.zeroHardwired = true then regs0.set 0 0 else regs0

/-- R109: the configuration, the program, the start values, then `pc <- 0`, `executed <- 0`, `status <- RUNNING`. -/
def State.launch (c : Config) (imem : List Word) (regs0 : Vector Word 32) (mem0 : List Host.Cell) : State where
  config    := c
  imem      := imem
  regs      := presetRegs c regs0
  pc        := 0
  mem       := Memory.preset c.memSize mem0
  executed  := 0
  status    := .running
  report    := none
  reportLog := []

/-- `imem` with `w` as its word `k`, lengthened with zero words where it is too short to have one. -/
def placeWord : List Word → Nat → Word → List Word
  | [], 0, w => [w]
  | [], k + 1, w => 0 :: placeWord [] k w
  | _ :: ws, 0, w => w :: ws
  | x :: ws, k + 1, w => x :: placeWord ws k w

/-- A budget that lets one more instruction execute: the state's own where it does, else `executed + 1`. -/
def State.withBudgetLeft (s : State) : State :=
  if s.executed < s.stepBudget then s else { s with config := { s.config with stepBudget := some (s.executed + 1) } }

/-- `w` placed at `pc / 4` of the program, the run going on, and budget left for it (log entry 8). -/
def State.placeNext (s : State) (w : Word) : State :=
  { s with imem := placeWord s.imem (s.pc.toNat / 4) w, status := .running }.withBudgetLeft

end Sys2Proof.Machine
end

