-- ==== Sys2Proof/Machine/Step.lean ====
section
/-! DEFINITION. One step of the machine: one cycle (40_decode_dispatch.md R70), refused in a state whose launch parameters
break the constraints of 00_scope.md R4 (log entry 5). -/
namespace Sys2Proof.Machine

def step (s : State) : Host.Outcome State Fault Refusal :=
  if s.LaunchLegal then cycle s else .refused .launchOutOfRange

/-- The word of a table row (numbered as spec/opcode_table.json numbers its bits, zero above `nbits`) loaded where the next
cycle fetches. A program comes from outside the machine (R109, R112); this stands for that load (log entry 8). -/
def State.withFetchWord (s : State) (nbits w : Nat) : State := s.placeNext (BitVec.ofNat 32 (w % 2 ^ nbits))

end Sys2Proof.Machine
end

