-- ==== Sys2Proof/Machine/Loader.lean ====
section
/-! DEFINITION. The text form of words and the loader (30_encoding.md R58, R69). The block never sees text (R69): these are
the host's functions before launch. -/
namespace Sys2Proof

/-- The character of a bit (R58). -/
def bitChar (b : Bool) : Char := if b then '1' else '0'

/-- R58: "exactly 32 characters of `'0'`/`'1'`, most-significant bit first". -/
def wordToText (w : Word) : Text := (List.range 32).map fun i => bitChar (w.getLsbD (31 - i))

/-- The value of a text of bits, most significant first. -/
def bitsValue (cs : Text) : Nat := cs.foldl (fun v c => 2 * v + if c = '1' then 1 else 0) 0

/-- R58: the inverse of `wordToText`, on the texts that are one. -/
def textToWord (cs : Text) : Option Word :=
  if cs.length = 32 ∧ ∀ c ∈ cs, c = '0' ∨ c = '1' then some (BitVec.ofNat 32 (bitsValue cs)) else none

/-- The pieces of a text between separators. -/
def pieces (sep : Char → Bool) : Text → List Text
  | [] => [[]]
  | c :: cs =>
    if sep c then [] :: pieces sep cs
    else match pieces sep cs with
      | [] => [[c]]
      | p :: ps => (c :: p) :: ps

/-- The lines of a text. -/
def textLines (t : Text) : List Text := pieces (· == '\n') t

/-- A text without the white space at its end. -/
def trimRight (t : Text) : Text := (t.reverse.dropWhile Char.isWhitespace).reverse

/-- A text without the white space around it. -/
def trim (t : Text) : Text := trimRight (t.dropWhile Char.isWhitespace)

/-- R58: "one line per instruction in program order". -/
def emitText (ws : List Word) : Text := ws.flatMap fun w => wordToText w ++ ['\n']

/-- Why the loader refuses a text. DESIGN CHOICE (log entry 24), safe: what the engine does there is not stated. -/
inductive LoadError where
  /-- a 32-character line with a character other than `0` and `1` (91_not_in_source.md N17) -/
  | notBinary
  /-- a line that has 32 characters only without the white space at its end (91_not_in_source.md N17) -/
  | trailingBlank
  deriving DecidableEq, Repr

/-- One input line (R69): its word, or nothing for a line that is skipped. -/
def loadLine (l : Text) : Except LoadError (Option Word) :=
  if l.length = 32 then
    match textToWord l with
    | some w => .ok (some w)
    | none => .error .notBinary
  else if (trimRight l).length = 32 then .error .trailingBlank
  else .ok none

/-- The lines in file order; a skipped line takes no slot (R69). -/
def loadLines : List Text → Except LoadError (List Word)
  | [] => .ok []
  | l :: ls =>
    match loadLine l, loadLines ls with
    | .error e, _ => .error e
    | .ok _, .error e => .error e
    | .ok (some w), .ok ws => .ok (w :: ws)
    | .ok none, .ok ws => .ok ws

/-- R69: the text file becomes `IMEM`. -/
def loadText (t : Text) : Except LoadError (List Word) := loadLines (textLines t)

end Sys2Proof
end

