-- ==== Sys2Proof/Machine/Assembler.lean ====
section
/-! DEFINITION. The assembler's syntax and encoding direction (30_encoding.md R57, R59 to R68; in scope by 00_scope.md
R2(h)). Where doc00 does not say what a spelling does, the model refuses it by name (log entry 23). -/
namespace Sys2Proof

/-- The points of the assembler that doc00 leaves open. -/
inductive OpenPoint where
  /-- 93_implementation_defined.md U4 -/
  | duplicateLabel
  /-- 91_not_in_source.md N19: a label that is not one run of letters and digits, or a second `:` on a line -/
  | labelText
  /-- 91_not_in_source.md N22: a name that is known in lower case only -/
  | letterCase
  /-- 91_not_in_source.md N14: a literal that is no plain decimal number and that another base or form could read -/
  | literalForm
  deriving DecidableEq, Repr

/-- The assembly errors (30_encoding.md R66), and the refusal of an open point. -/
inductive AsmError where
  /-- R66(a), with the offending mnemonic -/
  | format (mnemonic : Text)
  /-- R66(b) -/
  | unknownRegister (name : Text)
  /-- R66(b) -/
  | undefinedLabel (name : Text)
  /-- R66(c) -/
  | unsupportedOperation (mnemonic : Text)
  /-- DESIGN CHOICE (log entry 23), safe: the model does not say what the assembler does here -/
  | leftOpen (point : OpenPoint)
  deriving DecidableEq, Repr

/-! ### Lines and tokens -/

/-- A mnemonic and its operands (R60). -/
structure Token where
  mnemonic : Text
  operands : List Text
  deriving DecidableEq, Repr

/-- What one line holds (R59). -/
structure SourceLine where
  label : Option Text
  token : Option Token
  deriving DecidableEq, Repr

/-- Operands "are separated by commas and/or whitespace" (R60). -/
def isSeparator (c : Char) : Bool := c == ',' || c.isWhitespace

/-- R60: the first whitespace-delimited word is the mnemonic, the rest the operands; no empty operand is produced. -/
def tokenOf (t : Text) : Option Token :=
  match trim t with
  | [] => none
  | c :: cs => some {
      mnemonic := (c :: cs).takeWhile (fun c => !c.isWhitespace)
      operands := (pieces isSeparator ((c :: cs).dropWhile fun c => !c.isWhitespace)).filter (fun p => !p.isEmpty) }

/-- R59: "everything from the first comment marker (`#`) onward" goes, then the surrounding white space. -/
def stripComment (l : Text) : Text := trim (l.takeWhile (· != '#'))

/-- R59: a label before `:`, and the instruction after it on the same line.
DESIGN CHOICE (log entry 23): doc00 says neither which characters a label may hold (91_not_in_source.md N19) nor whether upper
case is accepted (N22); the model accepts letters of both cases and digits. -/
def parseLine (l : Text) : Except AsmError SourceLine :=
  match pieces (· == ':') (stripComment l) with
  | [] => .ok ⟨none, none⟩
  | [t] => .ok ⟨none, tokenOf t⟩
  | [label, t] =>
    if label ≠ [] ∧ label.all Char.isAlphanum then .ok ⟨some label, tokenOf t⟩ else .error (.leftOpen .labelText)
  | _ :: _ :: _ :: _ => .error (.leftOpen .labelText)

/-- Labels with the byte offset of the next instruction (R59). -/
abbrev SymbolTable := List (Text × Nat)

/-- The address of a label.
DESIGN CHOICE (log entry 23): the match is case-sensitive, `Loop` and `loop` are two labels (N22 leaves letter case open). -/
def SymbolTable.find (sym : SymbolTable) (name : Text) : Option Nat := (List.find? (fun e => e.1 == name) sym).map (·.2)

/-- A new label at the current location; one that is already there is U4's open point. -/
def SymbolTable.define (sym : SymbolTable) (pc : Nat) : Option Text → Except AsmError SymbolTable
  | none => .ok sym
  | some name => if (sym.find name).isSome then .error (.leftOpen .duplicateLabel) else .ok (sym ++ [(name, pc)])

/-- R59: the one scan over the lines. The location counter goes up by 4 for every line that yields a mnemonic. -/
def scan : List Text → Nat → SymbolTable → Except AsmError (SymbolTable × List (Nat × Token))
  | [], _, sym => .ok (sym, [])
  | l :: ls, pc, sym => do
    let line ← parseLine l
    let sym ← sym.define pc line.label
    match line.token with
    | none => scan ls pc sym
    | some t =>
      let r ← scan ls (pc + 4) sym
      return (r.1, (pc, t) :: r.2)

/-! ### Operands -/

/-- The register names in the order of their numbers (10_state.md R12).
PRESUMED (log entry 4): the numbers are the standard MIPS convention's. -/
def regNames : List String :=
  ["$zero", "$at", "$v0", "$v1", "$a0", "$a1", "$a2", "$a3", "$t0", "$t1", "$t2", "$t3", "$t4", "$t5", "$t6", "$t7"] ++
  ["$s0", "$s1", "$s2", "$s3", "$s4", "$s5", "$s6", "$s7", "$t8", "$t9", "$k0", "$k1", "$gp", "$sp", "$fp", "$ra"]

/-- The name of a register (R12). -/
def regName (r : Reg) : Text := (regNames.getD r.toNat "").toList

/-- The number of a register name (R12). -/
def regNumber (name : Text) : Option Reg := (regNames.findIdx? (fun r => r.toList == name)).map (BitVec.ofNat 5)

/-- A register operand (R67). -/
def register (name : Text) : Except AsmError Reg :=
  match regNumber name with
  | some r => .ok r
  | none => if (regNumber (name.map Char.toLower)).isSome then .error (.leftOpen .letterCase) else .error (.unknownRegister name)

/-- The value of a run of decimal digits, without a leading zero unless it is the only digit. -/
def digitsValue (ds : Text) : Option Nat :=
  if ds ≠ [] ∧ ds.all Char.isDigit ∧ (ds.length = 1 ∨ ds.head? ≠ some '0') then
    some (ds.foldl (fun v c => 10 * v + (c.toNat - '0'.toNat)) 0)
  else none

/-- A decimal number with an optional leading `-`, the form of the spec's own examples.
DESIGN CHOICE (log entry 23): R64 does not state the base of a literal (91_not_in_source.md N14), and the model reads bare
digits as decimal. -/
def decimal : Text → Option Int
  | '-' :: ds => (digitsValue ds).map fun v : Nat => -(v : Int)
  | ds => (digitsValue ds).map fun v : Nat => (v : Int)

/-- A text without a leading sign. -/
def unsigned : Text → Text
  | '-' :: t | '+' :: t => t
  | t => t

/-- A digit of base sixteen, the largest base in use. -/
def isHexDigit (c : Char) : Bool := c.isDigit || ('a' ≤ c && c ≤ 'f') || ('A' ≤ c && c ≤ 'F')

/-- The spellings that are no `decimal` and that some reading of "signed integer" could accept: after an optional sign nothing,
digits up to base sixteen, or a digit first (a leading zero as in `010`, the prefixes `0x`, `0b`, `0o`, a suffix). doc00 leaves
them open (N14), so they are refused, as 93_implementation_defined.md U9 asks.
DESIGN CHOICE (log entry 23): the line between these and an "unparseable numeric literal" (R66) is the model's. -/
def openLiteral (t : Text) : Bool := (unsigned t).all isHexDigit || (unsigned t).head?.any Char.isDigit

/-- A signed integer operand (R62, R64). -/
def literal (mnemonic t : Text) : Except AsmError Int :=
  match decimal t with
  | some v => .ok v
  | none => if openLiteral t then .error (.leftOpen .literalForm) else .error (.format mnemonic)

/-- R62: `offset(rs)`; a missing parenthesis fails. -/
def memOperand (mnemonic t : Text) : Except AsmError (Int × Reg) :=
  match pieces (· == '(') t with
  | [offset, rest] =>
    match pieces (· == ')') rest with
    | [name, []] => do return (← literal mnemonic offset, ← register name)
    | _ => .error (.format mnemonic)
  | _ => .error (.format mnemonic)

/-- A label operand (R63, R65): "undefined label is a hard failure". -/
def labelOperand (sym : SymbolTable) (name : Text) : Except AsmError Nat :=
  match sym.find name with
  | some a => .ok a
  | none => .error (.undefinedLabel name)

/-! ### Instructions -/

/-- The eleven mnemonics (R50, R68). -/
inductive Mnemonic where
  | add
  | sub
  | and
  | or
  | nor
  | slt
  | beq
  | addi
  | lw
  | sw
  | j
  deriving DecidableEq, Repr

/-- How a mnemonic is written. -/
def Mnemonic.text : Mnemonic → Text
  | .add => "add".toList
  | .sub => "sub".toList
  | .and => "and".toList
  | .or => "or".toList
  | .nor => "nor".toList
  | .slt => "slt".toList
  | .beq => "beq".toList
  | .addi => "addi".toList
  | .lw => "lw".toList
  | .sw => "sw".toList
  | .j => "j".toList

/-- All of them. -/
def Mnemonic.all : List Mnemonic := [.add, .sub, .and, .or, .nor, .slt, .beq, .addi, .lw, .sw, .j]

/-- The mnemonic a text spells. -/
def mnemonicOf (t : Text) : Option Mnemonic := Mnemonic.all.find? fun m => m.text == t

/-- R66(c), R68: "mnemonic not in either encoding table". -/
def operation (t : Text) : Except AsmError Mnemonic :=
  match mnemonicOf t with
  | some m => .ok m
  | none =>
    if (mnemonicOf (t.map Char.toLower)).isSome then .error (.leftOpen .letterCase) else .error (.unsupportedOperation t)

/-- R63: "the word-granular displacement … `(target_address − (current_pc + 4)) / 4`", low 16 bits. -/
def branchImmediate (target pc : Nat) : BitVec 16 := BitVec.ofInt 16 (((target : Int) - ((pc : Int) + 4)) / 4)

/-- R65: "`target_address >> 2` kept to 26 bits". -/
def jumpAddress (target : Nat) : BitVec 26 := BitVec.ofNat 26 (target >>> 2)

/-- R61: `mnemonic rd, rs, rt`. -/
def rOperands (mk : Reg → Reg → Reg → BitVec 5 → Instr) (mnemonic : Text) : List Text → Except AsmError Instr
  | [rd, rs, rt] => do return mk (← register rd) (← register rs) (← register rt) 0
  | _ => .error (.format mnemonic)

/-- R62: `mnemonic rt, offset(rs)`, the offset truncated to 16 bits. -/
def memOperands (mk : Reg → Reg → BitVec 16 → Instr) (mnemonic : Text) : List Text → Except AsmError Instr
  | [rt, m] => do
    let rt ← register rt
    let m ← memOperand mnemonic m
    return mk rt m.2 (BitVec.ofInt 16 m.1)
  | _ => .error (.format mnemonic)

/-- R63: `beq rs, rt, label`. -/
def branchOperands (sym : SymbolTable) (pc : Nat) (mnemonic : Text) : List Text → Except AsmError Instr
  | [rs, rt, label] => do return .beq (← register rs) (← register rt) (branchImmediate (← labelOperand sym label) pc)
  | _ => .error (.format mnemonic)

/-- R64: `addi rt, rs, imm`, "truncate to 16 bits". -/
def addiOperands (mnemonic : Text) : List Text → Except AsmError Instr
  | [rt, rs, imm] => do return .addi (← register rt) (← register rs) (BitVec.ofInt 16 (← literal mnemonic imm))
  | _ => .error (.format mnemonic)

/-- R65: `j label`. -/
def jumpOperands (sym : SymbolTable) (mnemonic : Text) : List Text → Except AsmError Instr
  | [label] => do return .j (jumpAddress (← labelOperand sym label))
  | _ => .error (.format mnemonic)

/-- The instruction of a token at location `pc` (R61 to R65). -/
def assembleToken (sym : SymbolTable) (pc : Nat) (t : Token) : Except AsmError Instr := do
  match ← operation t.mnemonic with
  | .add => rOperands .add t.mnemonic t.operands
  | .sub => rOperands .sub t.mnemonic t.operands
  | .and => rOperands .and t.mnemonic t.operands
  | .or => rOperands .or t.mnemonic t.operands
  | .nor => rOperands .nor t.mnemonic t.operands
  | .slt => rOperands .slt t.mnemonic t.operands
  | .beq => branchOperands sym pc t.mnemonic t.operands
  | .addi => addiOperands t.mnemonic t.operands
  | .lw => memOperands .lw t.mnemonic t.operands
  | .sw => memOperands .sw t.mnemonic t.operands
  | .j => jumpOperands sym t.mnemonic t.operands

/-- The second pass (R60): every token in order; the first error is the run's. -/
def assembleTokens (sym : SymbolTable) : List (Nat × Token) → Except AsmError (List Instr)
  | [] => .ok []
  | t :: ts => do
    let i ← assembleToken sym t.1 t.2
    let is ← assembleTokens sym ts
    return i :: is

/-- The instructions of a source text; an error leaves no partial output (R66). -/
def assembleInstrs (src : Text) : Except AsmError (List Instr) := do
  let r ← scan (textLines src) 0 []
  assembleTokens r.1 r.2

/-- The words of a source text, for these numerals. -/
def assemble (n : Numerals) (src : Text) : Except AsmError (List Word) := do
  return (← assembleInstrs src).map (encode n)

end Sys2Proof
end

