-- ==== Sys2Proof/Machine/Control.lean ====
section
/-! DEFINITION. The same execution seen as hardware: the control signals the decoder drives (40_decode_dispatch.md R76) and
the datapath they drive (R77, R78). `exec` is the meaning; that the two agree is stated as an obligation. -/
namespace Sys2Proof.Machine

/-- The "ALU function" column of R76. -/
inductive AluFn where
  | add
  | sub
  | and
  | or
  | nor
  | slt
  | equal
  deriving DecidableEq, Repr

/-- The second ALU input: `b = x[rt]` or `s = sext16(immediate)`; the first is always `a = x[rs]`. -/
inductive AluInput where
  | b
  | s
  deriving DecidableEq, Repr

/-- The "dest" column: which field names the register written. -/
inductive DestField where
  | rd
  | rt
  deriving DecidableEq, Repr

/-- The "write-back value" column. -/
inductive WriteBackValue where
  | alu
  | memRead
  deriving DecidableEq, Repr

/-- The "next pc" column. -/
inductive NextPc where
  | pcPlus4
  | targetIfEqual
  | jumpTarget
  deriving DecidableEq, Repr

/-- The "report" column. -/
inductive ReportKind where
  | unknownFunct
  | unknownOpcode
  deriving DecidableEq, Repr

/-- One row of R76's table; `none` is its "none" or "no". -/
structure Signals where
  alu      : Option (AluFn × AluInput) := none
  regWrite : Option (DestField × WriteBackValue) := none
  memRead  : Bool := false
  memWrite : Bool := false
  nextPc   : NextPc := .pcPlus4
  report   : Option ReportKind := none
  deriving DecidableEq, Repr

/-- R76's table. -/
def controlSignals : Decoded → Signals
  | .instr (.add ..) => { alu := some (.add, .b), regWrite := some (.rd, .alu) }
  | .instr (.sub ..) => { alu := some (.sub, .b), regWrite := some (.rd, .alu) }
  | .instr (.and ..) => { alu := some (.and, .b), regWrite := some (.rd, .alu) }
  | .instr (.or ..) => { alu := some (.or, .b), regWrite := some (.rd, .alu) }
  | .instr (.nor ..) => { alu := some (.nor, .b), regWrite := some (.rd, .alu) }
  | .instr (.slt ..) => { alu := some (.slt, .b), regWrite := some (.rd, .alu) }
  | .instr (.beq ..) => { alu := some (.equal, .b), nextPc := .targetIfEqual }
  | .instr (.addi ..) => { alu := some (.add, .s), regWrite := some (.rt, .alu) }
  | .instr (.lw ..) => { alu := some (.add, .s), regWrite := some (.rt, .memRead), memRead := true }
  | .instr (.sw ..) => { alu := some (.add, .s), memWrite := true }
  | .instr (.j ..) => { nextPc := .jumpTarget }
  | .instr (.j3 ..) => { nextPc := .jumpTarget }
  | .unknownFunct => { report := some .unknownFunct }
  | .unknownOpcode => { report := some .unknownOpcode }

/-- The ALU, a combinational function of its two inputs (70_reset_and_hazards.md R117). `slt` is the sign of the exact
difference and `equal` a zero difference. -/
def AluFn.eval : AluFn → Word → Word → Word
  | .add, x, y => x + y
  | .sub, x, y => x - y
  | .and, x, y => x &&& y
  | .or, x, y => x ||| y
  | .nor, x, y => ~~~x &&& ~~~y
  | .slt, x, y => if x.toInt - y.toInt < 0 then 1 else 0
  | .equal, x, y => if x - y = 0 then 1 else 0

/-- The second ALU input for these fields. -/
def AluInput.value (f : Fields) (s : State) : AluInput → Word
  | .b => s.readReg f.rt
  | .s => sext16 f.immediate

/-- The ALU output, if the ALU is used. -/
def Signals.aluOut (g : Signals) (f : Fields) (s : State) : Option Word :=
  g.alu.map fun c => c.1.eval (s.readReg f.rs) (c.2.value f s)

/-- The `MemRead` result, if memory is read. -/
def Signals.memOut (g : Signals) (f : Fields) (s : State) : Option Word :=
  if g.memRead = true then (g.aluOut f s).map s.memRead else none

/-- The register written and the value it takes, if one is written. -/
def Signals.writeBack (g : Signals) (f : Fields) (s : State) : Option (Reg × Word) :=
  g.regWrite.bind fun c =>
    (match c.2 with
      | .alu => g.aluOut f s
      | .memRead => g.memOut f s).map fun v => (match c.1 with | .rd => f.rd | .rt => f.rt, v)

/-- The next pc (R78). -/
def Signals.pcOut (g : Signals) (f : Fields) (s : State) : Word :=
  match g.nextPc with
  | .pcPlus4 => s.pc + 4
  | .targetIfEqual => if g.aluOut f s = some 1 then branchTarget s.pc f.immediate else s.pc + 4
  | .jumpTarget => jumpTarget s.pc f.address

/-- The memory write port: data `b` at the ALU's address. -/
def Signals.storeStage (g : Signals) (f : Fields) (s t : State) : State :=
  match g.memWrite, g.aluOut f s with
  | true, some ea => t.memWrite ea (s.readReg f.rt)
  | _, _ => t

/-- The register write port. -/
def Signals.writeStage (g : Signals) (f : Fields) (s t : State) : State :=
  match g.writeBack f s with
  | some c => t.writeReg c.1 c.2
  | none => t

/-- The report port. -/
def Signals.reportStage (g : Signals) (w : Word) (s t : State) : State :=
  match g.report with
  | some .unknownFunct => t.emit (.unknownFunct s.pc w)
  | some .unknownOpcode => t.emit (.unknownOpcode s.pc w)
  | none => t

/-- The state after the signals have acted on the word `w`. Every value is read from the state before (R77, R115). -/
def Signals.datapath (g : Signals) (w : Word) (s : State) : State :=
  (g.reportStage w s (g.writeStage (fields w) s (g.storeStage (fields w) s s))).setPc (g.pcOut (fields w) s)

end Sys2Proof.Machine
end

