-- ==== Sys2Proof/Safety.lean ====
section
/-! DEFINITION. The terms claims are stated in: what an instruction names, what a step leaves alone, the invariant of the
machine, and what counts as a safe run. -/
namespace Sys2Proof

/-! ### What an instruction names -/

/-- The register an instruction writes (10_state.md R15). -/
def Instr.dest? : Instr → Option Reg
  | .add rd .. | .sub rd .. | .and rd .. | .or rd .. | .nor rd .. | .slt rd .. => some rd
  | .addi rt .. | .lw rt .. => some rt
  | .beq .. | .sw .. | .j .. | .j3 .. => none

/-- The registers an instruction reads (10_state.md R13). -/
def Instr.sources : Instr → List Reg
  | .add _ rs rt _ | .sub _ rs rt _ | .and _ rs rt _ | .or _ rs rt _ | .nor _ rs rt _ | .slt _ rs rt _ => [rs, rt]
  | .beq rs rt _ | .sw rt rs _ => [rs, rt]
  | .addi _ rs _ | .lw _ rs _ => [rs]
  | .j .. | .j3 .. => []

/-- The store an instruction makes in a state: its address and its word, if it stores and its address is in range
(42_itype.md R93, 20_memory.md R34). -/
def Instr.store? (i : Instr) (s : Machine.State) : Option (Word × Word) :=
  match i with
  | .sw rt rs imm =>
    if s.inRange (s.effectiveAddress rs imm) then some (s.effectiveAddress rs imm, s.readReg rt) else none
  | .add .. | .sub .. | .and .. | .or .. | .nor .. | .slt .. | .beq .. | .addi .. | .lw .. | .j .. | .j3 .. => none

end Sys2Proof

namespace Sys2Proof.Machine

/-- The address `a` is one of the four bytes of a word stored at `ea`. -/
abbrev covers (ea : Word) (a : Nat) : Prop := ea.toNat ≤ a ∧ a < ea.toNat + 4

/-- Byte `k` of a word in memory order, most significant first (20_memory.md R31). -/
def byteOfWord (v : Word) (k : Nat) : Byte := BitVec.ofNat 8 (v.toNat / 2 ^ (8 * (3 - k)))

/-- `signed(v)` of 00_scope.md R5: "`v` if `v < 2^31`, else `v − 2^32`". -/
def signedValue (v : Word) : Int := if v.toNat < 2 ^ 31 then v.toNat else (v.toNat : Int) - 2 ^ 32

/-! ### What is left alone -/

/-- The launch inputs, the run controller and the reports are as they were. -/
structure SameOutside (s t : State) : Prop where
  config    : t.config = s.config
  imem      : t.imem = s.imem
  executed  : t.executed = s.executed
  status    : t.status = s.status
  report    : t.report = s.report
  reportLog : t.reportLog = s.reportLog

/-- Every register is as it was. -/
abbrev SameRegs (s t : State) : Prop := ∀ r, t.readReg r = s.readReg r

/-- Every byte of memory reads as it did. -/
abbrev SameMemory (s t : State) : Prop := ∀ a, t.memByte a = s.memByte a

/-- The result and the frame of an instruction that writes `v` to register `d`: 10_state.md R14 says what the write does,
also to a hard-wired register 0; every other register, all of memory and everything outside is as it was; the pc steps. -/
structure WritesRegister (s t : State) (d : Reg) (v : Word) : Prop where
  written   : ¬ (s.config.zeroHardwired = true ∧ d = 0) → t.readReg d = v
  discarded : s.config.zeroHardwired = true ∧ d = 0 → t.readReg d = s.readReg d
  others    : ∀ r, r ≠ d → t.readReg r = s.readReg r
  pc        : t.pc = s.pc + 4
  memory    : SameMemory s t
  outside   : SameOutside s t

/-- The result and the frame of an instruction that only sets the pc, to `target`. -/
structure MovesPcOnly (s t : State) (target : Word) : Prop where
  pc      : t.pc = target
  regs    : SameRegs s t
  memory  : SameMemory s t
  outside : SameOutside s t

/-- The result and the frame of a word that is reported and skipped in a cycle (30_encoding.md R54): one event, `pc + 4`,
counted, and nothing else. -/
structure ReportedAndSkipped (s t : State) (e : Report) : Prop where
  report    : t.report = some e
  reportLog : t.reportLog = s.reportLog ++ [e]
  pc        : t.pc = s.pc + 4
  executed  : t.executed = s.executed + 1
  status    : t.status = s.status
  regs      : SameRegs s t
  memory    : SameMemory s t
  config    : t.config = s.config
  imem      : t.imem = s.imem

/-- The whole of a three-register rule of 41_rtype_alu.md: the encoding (`opcode = 0`, `funct` the parameter, and for the
default numerals the mask and match), the assembly syntax, and the execution with its frame. -/
structure RTypeRule (name : String) (funct : Numerals → Selector) (pattern : Word)
    (mk : Reg → Reg → Reg → BitVec 5 → Instr) (value : Word → Word → Word) : Prop where
  encoding : ∀ (n : Numerals) (w : Word), n.Legal → (fields w).opcode = 0 → (fields w).funct = funct n →
    decode n w = .instr (mk (fields w).rd (fields w).rs (fields w).rt (fields w).shamt)
  mask     : ∀ w : Word, w &&& 0xFC00003F = pattern →
    decode {} w = .instr (mk (fields w).rd (fields w).rs (fields w).rt (fields w).shamt)
  assembly : ∀ (n : Numerals) (sym : SymbolTable) (pc : Nat) (rd rs rt : Reg),
    (assembleToken sym pc ⟨name.toList, [regName rd, regName rs, regName rt]⟩).map (encode n) =
      .ok (encR (funct n) rs rt rd)
  execution : ∀ (s : State) (rd rs rt : Reg) (shamt : BitVec 5),
    ∃ t, exec (mk rd rs rt shamt) s = .next t ∧ WritesRegister s t rd (value (s.readReg rs) (s.readReg rt))

/-! ### The cycle -/

/-- The state is one whose next cycle executes the word `w`: legal launch, running, `w` fetched, budget left
(40_decode_dispatch.md R70 to R73). -/
structure State.Executes (s : State) (w : Word) : Prop where
  legal   : s.LaunchLegal
  running : s.status = .running
  fetched : s.fetchWord = some w
  budget  : s.executed < s.stepBudget

/-- What a state that holds in every run meets. -/
structure State.Inv (s : State) : Prop where
  /-- the memory is in its canonical form -/
  memCanonical  : s.mem.wf
  /-- only existing addresses are listed (20_memory.md R30) -/
  memInside     : ∀ c ∈ s.mem, c.1 < s.config.memSize
  /-- "The pc is a multiple of 4 at every point of every run" (10_state.md R18) -/
  pcAligned     : s.pc.toNat % 4 = 0
  /-- a hard-wired register 0 reads as zero (10_state.md R14, R27) -/
  zeroHeld      : s.config.zeroHardwired = true → s.readReg 0 = 0
  /-- "at most `STEP_BUDGET` instructions execute in any run" (40_decode_dispatch.md R72) -/
  withinBudget  : s.executed ≤ s.stepBudget
  /-- the event at the port is the last of the log (10_state.md R24) -/
  portIsLast    : ∀ e, s.report = some e → s.reportLog.getLast? = some e
  /-- `HALTED`: the pc has left the loaded sequence (10_state.md R23) -/
  haltedOutside : s.status = .halted → 4 * s.wordCount ≤ s.pc.toNat
  /-- `ABORTED`: the budget is used up with the pc inside the program (40_decode_dispatch.md R72) -/
  abortedInside : s.status = .aborted → s.executed = s.stepBudget ∧ s.pc.toNat < 4 * s.wordCount
  /-- the step guard has reported exactly in an aborted run (40_decode_dispatch.md R72) -/
  guardReported : (∃ pc n, Report.stepBudgetExceeded pc n ∈ s.reportLog) ↔ s.status = .aborted

/-- The store the next cycle makes, if it makes one. -/
def State.cycleStore (s : State) : Option (Word × Word) :=
  match s.status, s.fetchWord with
  | .running, some w =>
    if s.executed < s.stepBudget then (decode s.config.numerals w).instr?.bind fun i => i.store? s else none
  | _, _ => none

/-- The in-range stores of the first `k` cycles of a run from `s`, in execution order (20_memory.md R41). -/
def storesOfRun : Nat → State → List (Word × Word)
  | 0, _ => []
  | k + 1, s =>
    match step s with
    | .next t => s.cycleStore.toList ++ storesOfRun k t
    | .fault _ | .refused _ => []

/-- The byte that the latest of these stores left at address `a`, if one wrote it (20_memory.md R41(c)). -/
def latestStored (stores : List (Word × Word)) (a : Nat) : Option Byte :=
  (stores.reverse.find? fun p => decide (covers p.1 a)).map fun p => byteOfWord p.2 (a - p.1.toNat)

/-- A run is safe when it finishes normally and nothing was reported: `HALTED` is the normal end (40_decode_dispatch.md R79),
an `ABORTED` run did not finish (93_implementation_defined.md U3, U11), and a claim may require the report log empty
(60_exceptions.md R100). -/
def SafeRun (k : Nat) (s t : State) : Prop :=
  Host.Core.run Sys2Proof.core k s = .next t ∧ t.status = .halted ∧ t.reportLog = []

end Sys2Proof.Machine
end

