-- ==== Sys2Proof/Certificates/Slice0/Obligations.lean ====
section
/-! DEFINITION. The statements for the provers. Each docstring names the rule or the section of spec/ it formalises, and, where
it rests on a decision of the spec (spec/92_eei_decisions.md) or a choice of the model, that decision and its log entry. -/

open Sys2Proof Sys2Proof.Machine

/-! ### Launch and reset -/

/-- 10_state.md section 7 (R27). The pc is doc00's; zero registers and zero memory are the spec's decision D11 (log entries 1
and 2), the other rows its inference. `VERBOSE = false` (in `config = {}`) and the empty `IMEM` are no part of R27's table but the
model's choices (log entries 7 and 8). -/
def Obligations.ResetHoldsTheLaunchTable : Prop :=
  State.reset.pc = 0 ∧ (∀ r, State.reset.readReg r = 0) ∧ (∀ a, a < 4096 → State.reset.memByte a = some 0) ∧
  State.reset.executed = 0 ∧ State.reset.status = .running ∧ State.reset.report = none ∧ State.reset.reportLog = [] ∧
  State.reset.config = {} ∧ State.reset = State.launch {} [] (Vector.replicate 32 0) []

/-- R110: "Execution begins at instruction offset 0 …, with the word `IMEM[0]` if `WORD_COUNT > 0`": whatever is launched. -/
def Obligations.ExecutionBeginsWithWordZero : Prop :=
  ∀ (c : Config) (imem : List Word) (regs0 : Vector Word 32) (mem0 : List Host.Cell),
    (State.launch c imem regs0 mem0).pc = 0 ∧
    ∀ h : 0 < imem.length, (State.launch c imem regs0 mem0).fetchWord = some (imem[0]'h)

/-- What launch leaves for the host's inputs (10_state.md sections 6 and 7, 70_reset_and_hazards.md section 1): the preset
registers, register 0 at zero where it is hard-wired, and for each memory address the last byte preset there, else 0.
The zero default is the spec's decision D11 (log entry 2), the list of presets the model's form of `mem0` (log entry 9). -/
def Obligations.LaunchPresetsRegistersAndMemory : Prop :=
  ∀ (c : Config) (imem : List Word) (regs0 : Vector Word 32) (mem0 : List Host.Cell),
    (∀ r : Reg, (State.launch c imem regs0 mem0).readReg r =
      if c.zeroHardwired = true ∧ r = 0 then 0 else regs0[r.toNat]'r.isLt) ∧
    (∀ a, a < c.memSize → (State.launch c imem regs0 mem0).memByte a =
      some (((mem0.reverse.find? fun cell => cell.1 == a).map (·.2)).getD 0))

/-! ### Encoding -/

/-- 30_encoding.md section 1 (R48): each of the eight fields as the number that bits hi down to lo of the word make. The bit
positions are the spec's decision D13 (log entry 17). -/
def Obligations.FieldsAreTheWordsBitRanges : Prop :=
  ∀ w : Word,
    (fields w).opcode.toNat = w.toNat / 2 ^ 26 ∧ (fields w).rs.toNat = w.toNat / 2 ^ 21 % 2 ^ 5 ∧
    (fields w).rt.toNat = w.toNat / 2 ^ 16 % 2 ^ 5 ∧ (fields w).rd.toNat = w.toNat / 2 ^ 11 % 2 ^ 5 ∧
    (fields w).shamt.toNat = w.toNat / 2 ^ 6 % 2 ^ 5 ∧ (fields w).funct.toNat = w.toNat % 2 ^ 6 ∧
    (fields w).immediate.toNat = w.toNat % 2 ^ 16 ∧ (fields w).address.toNat = w.toNat % 2 ^ 26

/-- 30_encoding.md section 4 (R57), 95_test_vectors.md S1: slicing a packed word gives back every field its format has. -/
def Obligations.SlicingInvertsPacking : Prop :=
  (∀ (funct : Selector) (rs rt rd : Reg),
    (fields (encR funct rs rt rd)).opcode = 0 ∧ (fields (encR funct rs rt rd)).rs = rs ∧
    (fields (encR funct rs rt rd)).rt = rt ∧ (fields (encR funct rs rt rd)).rd = rd ∧
    (fields (encR funct rs rt rd)).shamt = 0 ∧ (fields (encR funct rs rt rd)).funct = funct) ∧
  (∀ (opcode : Selector) (rs rt : Reg) (imm16 : BitVec 16),
    (fields (encI opcode rs rt imm16)).opcode = opcode ∧ (fields (encI opcode rs rt imm16)).rs = rs ∧
    (fields (encI opcode rs rt imm16)).rt = rt ∧ (fields (encI opcode rs rt imm16)).immediate = imm16) ∧
  (∀ (opcode : Selector) (addr26 : BitVec 26),
    (fields (encJ opcode addr26)).opcode = opcode ∧ (fields (encJ opcode addr26)).address = addr26)

/-- Headline. For all legal numerals, every instruction at every operand value (any `shamt` too) decodes from its word
(30_encoding.md section 4). -/
def Obligations.DecodeInvertsEncode : Prop :=
  ∀ (n : Numerals) (i : Instr), n.Legal → decode n (encode n i) = .instr i

/-- Headline. Every word that decodes to an instruction is that instruction's word: no word has two meanings, and no bit of a
word is dropped (30_encoding.md sections 3 and 4). -/
def Obligations.EncodeInvertsDecode : Prop :=
  ∀ (n : Numerals) (w : Word) (i : Instr), decode n w = .instr i → encode n i = w

/-- 30_encoding.md section 3 (R54): exactly the words of the two reserved spaces decode to no instruction, each to the
unknown case of its own class. -/
def Obligations.ReservedSpacesAreExactlyTheUnknownCases : Prop :=
  ∀ (n : Numerals) (w : Word), n.Legal →
    (decode n w = .unknownFunct ↔ (fields w).opcode = 0 ∧ (fields w).funct ∉ n.functs) ∧
    (decode n w = .unknownOpcode ↔ (fields w).opcode ∉ [0, 2, 3] ++ n.iOpcodes)

/-- A sanity statement on words written out in spec/95_test_vectors.md, one of each family. -/
def Obligations.SpecWordsDecodeToTheirInstructions : Prop :=
  decode {} 0x01095020 = .instr (.add 10 8 9 0) ∧ decode {} 0x0128502A = .instr (.slt 10 9 8 0) ∧
  decode {} 0x1109FFFE = .instr (.beq 8 9 0xFFFE) ∧ decode {} 0x8C0EFFFC = .instr (.lw 14 0 0xFFFC) ∧
  decode {} 0xAC080008 = .instr (.sw 8 0 8) ∧ decode {} 0x0C000002 = .instr (.j3 2) ∧
  decode {} 0x00000000 = .unknownFunct ∧ decode {} 0x14000000 = .unknownOpcode

/-- R6: "`v` if `v < 32768`, else `v + 0xFFFF0000`", which preserves the sign of the two's-complement immediate. -/
def Obligations.SignExtensionPreservesTheImmediate : Prop :=
  ∀ v : BitVec 16,
    (sext16 v).toNat = (if v.toNat < 32768 then v.toNat else v.toNat + 0xFFFF0000) ∧ (sext16 v).toInt = v.toInt

/-! ### Instructions: encoding, completion, result and frame -/

/-- 41_rtype_alu.md section 2, the entries of `and`, `or` and `nor`, each whole: encoding, assembly syntax, result, and frame. The
field positions are the spec's decision D13, the default numerals of the masks its G1 (log entries 17 and 4). -/
def Obligations.BitwiseInstructionRules : Prop :=
  RTypeRule "and" Numerals.fnAnd 0x00000024 .and (fun a b => a &&& b) ∧
  RTypeRule "or" Numerals.fnOr 0x00000025 .or (fun a b => a ||| b) ∧
  RTypeRule "nor" Numerals.fnNor 0x00000027 .nor (fun a b => ~~~(a ||| b))

/-- 41_rtype_alu.md section 2, the entries of `add`, `sub` and `slt`. The wrap without a trap is the spec's decision D4 (log
entry 10), the operand order of `sub` and `slt` its decision D21 (log entry 20). Sum and difference are computed over the
integers and reduced modulo 2^32; the comparison is of `signed` values (R5). -/
def Obligations.ArithmeticInstructionRules : Prop :=
  RTypeRule "add" Numerals.fnAdd 0x00000020 .add (fun a b => BitVec.ofNat 32 (a.toNat + b.toNat)) ∧
  RTypeRule "sub" Numerals.fnSub 0x00000022 .sub (fun a b => BitVec.ofInt 32 ((a.toNat : Int) - b.toNat)) ∧
  RTypeRule "slt" Numerals.fnSlt 0x0000002A .slt (fun a b => if signedValue a < signedValue b then 1 else 0)

/-- 42_itype.md section 2, the entry of `addi`: encoding, result and frame. The wrap is the spec's decision D4 (log entry 10). -/
def Obligations.AddImmediateRule : Prop :=
  (∀ (n : Numerals) (w : Word), n.Legal → (fields w).opcode = n.opAddi →
    decode n w = .instr (.addi (fields w).rt (fields w).rs (fields w).immediate)) ∧
  ∀ (s : State) (rt rs : Reg) (imm : BitVec 16), ∃ t, exec (.addi rt rs imm) s = .next t ∧
    WritesRegister s t rt (BitVec.ofInt 32 ((s.readReg rs).toNat + imm.toInt))

/-- 42_itype.md section 2, the entry of `lw`: encoding, result in and out of range, frame. The address wrap, the bounds test
and the zero written out of range are the spec's decisions D7 and D9, any alignment its D10 (log entries 14, 15, 18). -/
def Obligations.LoadWordRule : Prop :=
  (∀ (n : Numerals) (w : Word), n.Legal → (fields w).opcode = n.opLw →
    decode n w = .instr (.lw (fields w).rt (fields w).rs (fields w).immediate)) ∧
  ∀ (s : State) (rt rs : Reg) (imm : BitVec 16),
    (∀ b0 b1 b2 b3 : Byte,
      s.memByte (s.effectiveAddress rs imm).toNat = some b0 → s.memByte ((s.effectiveAddress rs imm).toNat + 1) = some b1 →
      s.memByte ((s.effectiveAddress rs imm).toNat + 2) = some b2 → s.memByte ((s.effectiveAddress rs imm).toNat + 3) = some b3 →
      ∃ t, exec (.lw rt rs imm) s = .next t ∧ WritesRegister s t rt
        (BitVec.ofNat 32 (b0.toNat * 2 ^ 24 + b1.toNat * 2 ^ 16 + b2.toNat * 2 ^ 8 + b3.toNat))) ∧
    (s.config.memSize < (s.effectiveAddress rs imm).toNat + 4 →
      ∃ t, exec (.lw rt rs imm) s = .next t ∧ WritesRegister s t rt 0)

/-- 42_itype.md section 2, the entry of `sw`, whole: encoding, assembly syntax, the four bytes stored, the frame (every other byte, every register), nothing
stored out of range, and "`sw` followed by `lw` at the same effective address returns the stored value unchanged". The address wrap and the bounds
test are the spec's decision D7, any alignment its D10, the default numeral of the mask its G1 (log entries 14, 18, 4); that an offset is
read as decimal is the model's choice (log entry 23). -/
def Obligations.StoreWordRule : Prop :=
  (∀ (n : Numerals) (w : Word), n.Legal → (fields w).opcode = n.opSw →
    decode n w = .instr (.sw (fields w).rt (fields w).rs (fields w).immediate)) ∧
  (∀ w : Word, w &&& 0xFC000000 = 0xAC000000 →
    decode {} w = .instr (.sw (fields w).rt (fields w).rs (fields w).immediate)) ∧
  (∀ (n : Numerals) (sym : SymbolTable) (pc : Nat) (rt rs : Reg) (offset : Text) (v : Int), decimal offset = some v →
    (assembleToken sym pc ⟨"sw".toList, [regName rt, offset ++ '(' :: regName rs ++ [')']]⟩).map (encode n) =
      .ok (encI n.opSw rs rt (BitVec.ofInt 16 v))) ∧
  ∀ (s : State) (rt rs : Reg) (imm : BitVec 16), ∃ t, exec (.sw rt rs imm) s = .next t ∧
    t.pc = s.pc + 4 ∧ SameRegs s t ∧ SameOutside s t ∧
    (s.effectiveAddress rs imm).toNat = ((s.readReg rs).toNat + (sext16 imm).toNat) % 2 ^ 32 ∧
    (∀ k, k < 4 → s.mem.wf → (s.effectiveAddress rs imm).toNat + 4 ≤ s.config.memSize →
      t.memByte ((s.effectiveAddress rs imm).toNat + k) = some (byteOfWord (s.readReg rt) k)) ∧
    (∀ a, ¬ covers (s.effectiveAddress rs imm) a → t.memByte a = s.memByte a) ∧
    (s.config.memSize < (s.effectiveAddress rs imm).toNat + 4 → SameMemory s t) ∧
    ∀ (rd base : Reg) (off : BitVec 16), t.effectiveAddress base off = s.effectiveAddress rs imm → s.mem.wf →
      (s.effectiveAddress rs imm).toNat + 4 ≤ s.config.memSize → ¬ (s.config.zeroHardwired = true ∧ rd = 0) →
      ∃ u, exec (.lw rd base off) t = .next u ∧ u.readReg rd = s.readReg rt

/-- 42_itype.md section 2, the entry of `beq`: encoding, both outcomes with the target over the integers, frame. That a pc value
is reduced modulo 2^32 is the spec's decision D6, that a taken branch to itself adds no 4 its decision D12 (log entries 13, 16). -/
def Obligations.BranchEqualRule : Prop :=
  (∀ (n : Numerals) (w : Word), n.Legal → (fields w).opcode = n.opBeq →
    decode n w = .instr (.beq (fields w).rs (fields w).rt (fields w).immediate)) ∧
  ∀ (s : State) (rs rt : Reg) (imm : BitVec 16),
    (s.readReg rs = s.readReg rt → ∃ t, exec (.beq rs rt imm) s = .next t ∧
      MovesPcOnly s t (BitVec.ofInt 32 ((s.pc.toNat : Int) + 4 + 4 * imm.toInt))) ∧
    (s.readReg rs ≠ s.readReg rt → ∃ t, exec (.beq rs rt imm) s = .next t ∧ MovesPcOnly s t (s.pc + 4))

/-- 43_jtype.md section 2, the entry of `j`, whole: encoding, assembly syntax, the target (bits 31:28 of the jump's own pc, then the address, then two zero bits),
and the frame. That `j` is opcode 2 is the spec's decision D2, the field positions its D13 (log entries 4, 17). -/
def Obligations.JumpRule : Prop :=
  (∀ (n : Numerals) (w : Word), (fields w).opcode = 2 → decode n w = .instr (.j (fields w).address)) ∧
  (∀ w : Word, w &&& 0xFC000000 = 0x08000000 → decode {} w = .instr (.j (fields w).address)) ∧
  (∀ (n : Numerals) (sym : SymbolTable) (pc target : Nat) (label : Text), sym.find label = some target →
    (assembleToken sym pc ⟨"j".toList, [label]⟩).map (encode n) = .ok (encJ 2 (BitVec.ofNat 26 (target / 4)))) ∧
  ∀ (s : State) (address : BitVec 26), ∃ t, exec (.j address) s = .next t ∧
    MovesPcOnly s t (BitVec.ofNat 32 (s.pc.toNat / 2 ^ 28 * 2 ^ 28 + address.toNat * 4))

/-- 43_jtype.md section 2, the entry of the opcode-3 jump: the target of `j`, and no register written, `x[31]` least of all.
That it is a plain jump is the spec's decision D18 (log entry 19). -/
def Obligations.OpcodeThreeJumpRule : Prop :=
  (∀ (n : Numerals) (w : Word), (fields w).opcode = 3 → decode n w = .instr (.j3 (fields w).address)) ∧
  ∀ (s : State) (address : BitVec 26), ∃ t, exec (.j3 address) s = .next t ∧
    MovesPcOnly s t (BitVec.ofNat 32 (s.pc.toNat / 2 ^ 28 * 2 ^ 28 + address.toNat * 4)) ∧
    exec (.j address) s = .next t

/-- 41_rtype_alu.md section 2, the entry of the unknown function code, as a cycle. That memory is unchanged is the spec's
inference, the payload its decision D15 (log entry 6). -/
def Obligations.UnknownFunctionCodeIsReportedAndSkipped : Prop :=
  ∀ (s : State) (w : Word), s.Executes w → (fields w).opcode = 0 → (fields w).funct ∉ s.config.numerals.functs →
    ∃ t, step s = .next t ∧ ReportedAndSkipped s t (.unknownFunct s.pc w)

/-- 42_itype.md section 2, the entry of the unknown opcode, whole: as a cycle, "report UnknownOpcode(pc, w)", `pc + 4`, counted, nothing else changed; "with the defaults, 57
opcode values"; "the assembler cannot emit it". The payload is the spec's decision D15, the default numerals its G1 (log entries 6, 4). -/
def Obligations.UnknownOpcodeIsReportedAndSkipped : Prop :=
  (∀ (s : State) (w : Word), s.Executes w → (fields w).opcode ∉ [0, 2, 3] ++ s.config.numerals.iOpcodes →
    ∃ t, step s = .next t ∧ ReportedAndSkipped s t (.unknownOpcode s.pc w)) ∧
  ((List.range 64).filter fun k => BitVec.ofNat 6 k ∉ [0, 2, 3] ++ ({} : Numerals).iOpcodes).length = 57 ∧
  (∀ (n : Numerals) (src : Text) (ws : List Word), n.Legal → assemble n src = .ok ws →
    ∀ w ∈ ws, (fields w).opcode ∈ [0, 2, 3] ++ n.iOpcodes)

/-- 60_exceptions.md section 1 (R98, R99): no instruction faults, traps or refuses, in any state, on any operands. -/
def Obligations.EveryInstructionCompletes : Prop :=
  ∀ (i : Instr) (s : State), ∃ t, exec i s = .next t

/-- The frame of all twelve instructions: outside the destination register, the bytes of an in-range store and the pc, nothing
changes; a hard-wired register 0 never does (10_state.md sections 2 and 5, 20_memory.md section 3). -/
def Obligations.EveryInstructionKeepsItsFrame : Prop :=
  ∀ (i : Instr) (s t : State), exec i s = .next t →
    (∀ r, i.dest? ≠ some r → t.readReg r = s.readReg r) ∧
    (s.config.zeroHardwired = true → t.readReg 0 = s.readReg 0) ∧
    (∀ a, (∀ p, i.store? s = some p → ¬ covers p.1 a) → t.memByte a = s.memByte a) ∧
    SameOutside s t

/-- 30_encoding.md section 3 (R53), the spec's decision D17 (log entry 21): `shamt` changes nothing. -/
def Obligations.ShiftAmountIsIgnored : Prop :=
  ∀ (s : State) (rd rs rt : Reg) (a b : BitVec 5),
    exec (.add rd rs rt a) s = exec (.add rd rs rt b) s ∧ exec (.sub rd rs rt a) s = exec (.sub rd rs rt b) s ∧
    exec (.and rd rs rt a) s = exec (.and rd rs rt b) s ∧ exec (.or rd rs rt a) s = exec (.or rd rs rt b) s ∧
    exec (.nor rd rs rt a) s = exec (.nor rd rs rt b) s ∧ exec (.slt rd rs rt a) s = exec (.slt rd rs rt b) s

/-- 40_decode_dispatch.md R77, 10_state.md R16: what an instruction does depends on no register but its sources. Two states
that agree on them, on the pc, the memory and the configuration, get the same pc, memory and written value. -/
def Obligations.InstructionsReadOnlyTheirSources : Prop :=
  ∀ (i : Instr) (s t : State), s.config = t.config → s.pc = t.pc → s.mem = t.mem →
    (∀ r ∈ i.sources, s.readReg r = t.readReg r) →
    ∃ s' t', exec i s = .next s' ∧ exec i t = .next t' ∧ s'.pc = t'.pc ∧ s'.mem = t'.mem ∧
      ∀ d, i.dest? = some d → ¬ (s.config.zeroHardwired = true ∧ d = 0) → s'.readReg d = t'.readReg d

/-- An equivalence of two designs (40_decode_dispatch.md section 3, R76; the table is the spec's own, decision D14):
for every word in every state, the datapath driven by the control signals of the decoded word is its execution. -/
def Obligations.ControlSignalsDriveTheSameExecution : Prop :=
  ∀ (w : Word) (s : State), execWord w s = .next ((controlSignals (decode s.config.numerals w)).datapath w s)

/-! ### Registers and memory -/

/-- 10_state.md section 2 (R13, R14), for both answers to the spec's decision D1 (log entry 22): a written slot reads back,
slot 0 too unless it is hard-wired, and no other slot changes. -/
def Obligations.RegisterWritesReadBack : Prop :=
  ∀ (s : State) (i r : Reg) (v : Word),
    (s.writeReg i v).readReg r =
      if r = i ∧ ¬ (s.config.zeroHardwired = true ∧ i = 0) then v else s.readReg r

/-- R15: the register file after an instruction is the one before with at most its destination written: `x[rd]` by the six
R-type instructions, `x[rt]` by `addi` and `lw`, none by `beq`, `sw`, the jumps and the two unknown cases. -/
def Obligations.RegisterFileIsWrittenOnlyAsListed : Prop :=
  (∀ (i : Instr) (s t : State), exec i s = .next t →
    (∀ d, i.dest? = some d → ∃ v, t.regs = (s.writeReg d v).regs) ∧ (i.dest? = none → t.regs = s.regs)) ∧
  (∀ (s t : State) (w : Word), execWord w s = .next t → (decode s.config.numerals w).instr? = none → t.regs = s.regs) ∧
  (∀ (rd rs rt : Reg) (shamt : BitVec 5) (imm : BitVec 16) (a : BitVec 26),
    (Instr.add rd rs rt shamt).dest? = some rd ∧ (Instr.sub rd rs rt shamt).dest? = some rd ∧
    (Instr.and rd rs rt shamt).dest? = some rd ∧ (Instr.or rd rs rt shamt).dest? = some rd ∧
    (Instr.nor rd rs rt shamt).dest? = some rd ∧ (Instr.slt rd rs rt shamt).dest? = some rd ∧
    (Instr.addi rt rs imm).dest? = some rt ∧ (Instr.lw rt rs imm).dest? = some rt ∧
    (Instr.beq rs rt imm).dest? = none ∧ (Instr.sw rt rs imm).dest? = none ∧
    (Instr.j a).dest? = none ∧ (Instr.j3 a).dest? = none)

/-- 20_memory.md section 3 (R33): the loaded word by its bytes, big-endian at any alignment, and 0 out of range. The unwrapped
comparison is the spec's decision D7 (log entry 14). -/
def Obligations.MemReadGivesTheBytes : Prop :=
  ∀ (s : State) (a : Word),
    (a.toNat + 4 ≤ s.config.memSize → ∀ k, k < 4 →
      s.memByte (a.toNat + k) = some (byteOfWord (s.memRead a) k)) ∧
    (s.config.memSize < a.toNat + 4 → s.memRead a = 0)

/-- 20_memory.md section 3 (R34): the four bytes, "`MEM[a] <- v[31:24]`" and so on, or none of them; no other byte, no register,
nothing else. The unwrapped comparison is the spec's decision D7, any alignment its D10 (log entries 14, 18). -/
def Obligations.MemWriteStoresTheBytes : Prop :=
  ∀ (s : State) (a : Word) (v : Word),
    (s.mem.wf → a.toNat + 4 ≤ s.config.memSize → ∀ k, k < 4 →
      (s.memWrite a v).memByte (a.toNat + k) = some (byteOfWord v k)) ∧
    (∀ b, ¬ covers a b → (s.memWrite a v).memByte b = s.memByte b) ∧
    (s.config.memSize < a.toNat + 4 → s.memWrite a v = s) ∧
    (s.memWrite a v).pc = s.pc ∧ SameRegs s (s.memWrite a v) ∧ SameOutside s (s.memWrite a v)

/-- The model's canonical form of memory (log entry 2): memories in it that read alike are the same data. -/
def Obligations.CanonicalMemoriesThatReadAlikeAreEqual : Prop :=
  ∀ m₁ m₂ : Memory, m₁.wf → m₂.wf → (∀ a, m₁.read a = m₂.read a) → m₁ = m₂

/-! ### The cycle -/

/-- A step runs the decoded instruction (40_decode_dispatch.md section 1, R70): a running state with the word fetched and budget
left steps to what `exec` gives, with the count raised after, and that is a next state. That the report port is cleared before
the instruction is the model's choice (log entry 6). -/
def Obligations.StepRunsTheDecodedInstruction : Prop :=
  ∀ (s : State) (w : Word) (i : Instr), s.Executes w → decode s.config.numerals w = .instr i →
    ∃ t, exec i s.clearReport = .next t ∧ step s = .next { t with executed := s.executed + 1 }

/-- R71, whole: the halt test over the naturals; halting changes the status and nothing else, with no event; the empty program
halts in its first cycle; no instruction halts. -/
def Obligations.RunHaltsWhenThePcLeavesTheProgram : Prop :=
  (∀ s : State, s.LaunchLegal → s.status = .running → 4 * s.wordCount ≤ s.pc.toNat →
    step s = .next { s with status := .halted, report := none }) ∧
  (∀ s t : State, s.status = .running → step s = .next t → t.status = .halted → 4 * s.wordCount ≤ s.pc.toNat) ∧
  (∀ (c : Config) (regs0 : Vector Word 32) (mem0 : List Host.Cell), c.Legal 0 →
    step (State.launch c [] regs0 mem0) = .next { State.launch c [] regs0 mem0 with status := .halted })

/-- 40_decode_dispatch.md section 1 (R72), the spec's decision D3 (log entry 11): inside the program with the budget used up
the run ends `ABORTED` with one report, and nothing else changes; by default the budget is `WORD_COUNT`. -/
def Obligations.StepGuardAbortsTheRun : Prop :=
  (∀ s : State, s.LaunchLegal → s.status = .running → s.pc.toNat < 4 * s.wordCount → s.stepBudget ≤ s.executed →
    step s = .next { s with
      status := .aborted
      report := some (.stepBudgetExceeded s.pc s.executed)
      reportLog := s.reportLog ++ [.stepBudgetExceeded s.pc s.executed] }) ∧
  (∀ s : State, s.config.stepBudget = none → s.stepBudget = s.wordCount) ∧
  (∀ (s : State) (b : Nat), s.config.stepBudget = some b → s.stepBudget = b)

/-- 10_state.md section 5 (R23), 40_decode_dispatch.md section 4: "Both end states are terminal"; the port of a terminal cycle
shows no event (log entry 6). -/
def Obligations.TerminalStatusIsLeftByNoStep : Prop :=
  ∀ s : State, s.LaunchLegal → s.status ≠ .running → step s = .next { s with report := none }

/-- R113: the next word executed after a taken `beq` or a jump is the one at the target, after a `beq` not taken the one at
`pc + 4`; there is no delay slot. -/
def Obligations.NextFetchIsAtTheTarget : Prop :=
  ∀ (s t : State) (w : Word), s.Executes w → step s = .next t →
    (∀ rs rt imm, decode s.config.numerals w = .instr (.beq rs rt imm) → s.readReg rs = s.readReg rt →
      t.fetchWord = s.imem[(branchTarget s.pc imm).toNat / 4]?) ∧
    (∀ rs rt imm, decode s.config.numerals w = .instr (.beq rs rt imm) → s.readReg rs ≠ s.readReg rt →
      t.fetchWord = s.imem[(s.pc + 4).toNat / 4]?) ∧
    (∀ a, decode s.config.numerals w = .instr (.j a) ∨ decode s.config.numerals w = .instr (.j3 a) →
      t.fetchWord = s.imem[(jumpTarget s.pc a).toNat / 4]?)

/-- 40_decode_dispatch.md section 3 (R78): an executed word that is neither a jump nor a taken `beq` advances the pc by exactly 4. -/
def Obligations.EverythingElseAdvancesThePcByFour : Prop :=
  ∀ (s t : State) (w : Word), s.Executes w → step s = .next t →
    (∀ a, decode s.config.numerals w ≠ .instr (.j a) ∧ decode s.config.numerals w ≠ .instr (.j3 a)) →
    (∀ rs rt imm, decode s.config.numerals w = .instr (.beq rs rt imm) → s.readReg rs ≠ s.readReg rt) →
    t.pc = s.pc + 4

/-- 10_state.md section 3 (R19, an inference of the spec): the fall-through of an executing instruction never wraps, because a
program ends below 2^32 (00_scope.md R4, the spec's decision D5). -/
def Obligations.FallThroughNeverWraps : Prop :=
  ∀ s : State, s.LaunchLegal → s.pc.toNat < 4 * s.wordCount → s.pc.toNat % 4 = 0 →
    4 * s.wordCount ≤ 2 ^ 32 - 4 ∧ (s.pc + 4).toNat = s.pc.toNat + 4

/-- 10_state.md section 2 as a rule of the whole machine: a register that a step changes is the destination of the
instruction that step executed. -/
def Obligations.ChangedRegisterIsTheDestination : Prop :=
  ∀ (s t : State) (r : Reg), step s = .next t → t.readReg r ≠ s.readReg r →
    ∃ w i, s.Executes w ∧ decode s.config.numerals w = .instr i ∧ i.dest? = some r

/-- 20_memory.md sections 1 and 3 as a rule of the whole machine: a byte that a step changes lies in the word that the executed
`sw` stores, in range, at its effective address. -/
def Obligations.ChangedByteIsTheStores : Prop :=
  ∀ (s t : State) (a : Nat), step s = .next t → t.memByte a ≠ s.memByte a →
    ∃ w rt rs imm, s.Executes w ∧ decode s.config.numerals w = .instr (.sw rt rs imm) ∧
      s.inRange (s.effectiveAddress rs imm) ∧ covers (s.effectiveAddress rs imm) a

/-- 10_state.md section 5 (R23): `executed` goes up by one exactly in a cycle that executes a word, an unknown one too, and
stands still in every other. -/
def Obligations.ExecutedCountsExecutedWords : Prop :=
  ∀ s t : State, step s = .next t →
    ((∃ w, s.Executes w) → t.executed = s.executed + 1) ∧ ((¬ ∃ w, s.Executes w) → t.executed = s.executed)

/-- 10_state.md section 5 (R24), 60_exceptions.md section 1 (R100): at most one event a cycle, and the log grows by it. The
log in the state is the spec's decision D15 (log entry 6). -/
def Obligations.LogGrowsByThePortsEvent : Prop :=
  ∀ s t : State, step s = .next t → t.reportLog = s.reportLog ++ t.report.toList

/-- 60_exceptions.md section 1 (R98): no step faults. The one refusal is the model's own, for a launch outside the constraints of
R4 (log entry 5), and every legal state has a next state. -/
def Obligations.StepStopsOnlyOnAnIllegalLaunch : Prop :=
  ∀ s : State, (∀ f, step s ≠ .fault f) ∧ (∀ r, step s = .refused r ↔ r = .launchOutOfRange ∧ ¬ s.LaunchLegal) ∧
    (s.LaunchLegal → ∃ t, step s = .next t)

/-- 00_scope.md section 2, the row of `VERBOSE`: "no effect on any rule". -/
def Obligations.VerboseHasNoEffect : Prop :=
  ∀ (s t : State) (b : Bool), step s = .next t →
    step { s with config := { s.config with verbose := b } } = .next { t with config := { t.config with verbose := b } }

/-- The model's `placeNext`, which stands for a load (log entry 8): in a legal launch with the pc in reach, the word placed is
the one the next cycle executes, and registers, memory, pc and reports are as they were. -/
def Obligations.PlacedWordIsExecutedNext : Prop :=
  ∀ (s : State) (w : Word), s.LaunchLegal → s.pc.toNat < 4 * maxWordCount →
    (s.placeNext w).Executes w ∧ (s.placeNext w).pc = s.pc ∧ (s.placeNext w).regs = s.regs ∧ (s.placeNext w).mem = s.mem ∧
    (s.placeNext w).executed = s.executed ∧ (s.placeNext w).reportLog = s.reportLog

/-! ### Runs -/

/-- The invariant holds at reset. -/
def Obligations.ResetMeetsTheInvariant : Prop := State.reset.Inv

/-- The invariant holds at every launch with a legal configuration, whatever the program and the presets. -/
def Obligations.LaunchMeetsTheInvariant : Prop :=
  ∀ (c : Config) (imem : List Word) (regs0 : Vector Word 32) (mem0 : List Host.Cell), c.Legal imem.length →
    (State.launch c imem regs0 mem0).Inv ∧ (State.launch c imem regs0 mem0).LaunchLegal

/-- Headline. Every step keeps the invariant: canonical memory inside `MEM_SIZE`, aligned pc, hard-wired zero, the budget, the
report port and log, and what each terminal status says (10_state.md R14, R18, R23, R24, 20_memory.md R30,
40_decode_dispatch.md R71, R72), and the launch stays legal. -/
def Obligations.StepKeepsTheInvariant : Prop :=
  ∀ s t : State, s.Inv → step s = .next t → t.Inv ∧ t.LaunchLegal

/-- 20_memory.md section 6 (R43: "`IMEM[k]` is the same value at every fetch of a run"), whatever the run stores; and the
configuration is the one fixed at launch (10_state.md section 6, 70_reset_and_hazards.md section 1). That both stand in the state
is the model's choice (log entry 3). -/
def Obligations.RunsNeverChangeTheProgram : Prop :=
  ∀ (k : Nat) (s t : State), Host.Core.run Sys2Proof.core k s = .next t → t.imem = s.imem ∧ t.config = s.config

/-- 40_decode_dispatch.md section 1 (R72, the spec's decision D3, log entry 11): from every legal launch, the run has
ended after at most `STEP_BUDGET + 1` cycles, with at most `STEP_BUDGET` instructions executed. -/
def Obligations.EveryRunEndsWithinItsBudget : Prop :=
  ∀ (c : Config) (imem : List Word) (regs0 : Vector Word 32) (mem0 : List Host.Cell), c.Legal imem.length →
    ∃ t, Host.Core.run Sys2Proof.core (c.stepBudget.getD imem.length + 1) (State.launch c imem regs0 mem0) = .next t ∧
      t.status ≠ .running ∧ t.executed ≤ c.stepBudget.getD imem.length

/-- 20_memory.md section 6 (R41(c)): after any run, a byte of memory is the one that the latest in-range store of the
run wrote there, or the one before the run if none did. -/
def Obligations.MemoryHoldsTheLatestStores : Prop :=
  ∀ (k : Nat) (s t : State) (a : Nat), s.mem.wf → Host.Core.run Sys2Proof.core k s = .next t → a < s.config.memSize →
    t.memByte a = some ((latestStored (storesOfRun k s) a).getD (s.mem.read a))

/-! ### Text, assembler, loader -/

/-- R58, whole: a word's text is exactly 32 characters, character `i` is bit `31 − i`, "text-to-word is its exact inverse", the
rule's example, and the output file "one line per instruction … in program order". -/
def Obligations.WordTextIsInvertible : Prop :=
  (∀ w : Word, (wordToText w).length = 32 ∧ textToWord (wordToText w) = some w ∧
    ∀ i, i < 32 → (wordToText w)[i]? = some (if w.getLsbD (31 - i) then '1' else '0')) ∧
  (∀ (t : Text) (w : Word), textToWord t = some w → wordToText w = t) ∧
  wordToText 0x01095020 = "00000001000010010101000000100000".toList ∧
  (∀ ws : List Word, textLines (emitText ws) = ws.map wordToText ++ [[]])

/-- 30_encoding.md sections 4 and 6 (R58, R69): the loader reads back exactly the words the assembler's output file holds. -/
def Obligations.LoaderReadsBackTheEmittedWords : Prop :=
  ∀ ws : List Word, loadText (emitText ws) = .ok ws

/-- 10_state.md section 2 (R12): the 32 names are distinct and name the 32 registers. The number beside each name is general
knowledge (G2, log entry 4). -/
def Obligations.RegisterNamesNumberTheRegisters : Prop :=
  (∀ r : Reg, regNumber (regName r) = some r) ∧ (∀ t r, regNumber t = some r → t = regName r) ∧
  regName 0 = "$zero".toList ∧ regName 8 = "$t0".toList ∧ regName 31 = "$ra".toList

/-- 30_encoding.md section 5 (R65): `j label`: the field is "`target_address >> 2` kept to 26 bits", and an undefined label is a
hard failure. That `j` emits opcode 2 is the spec's decision D2, the field positions its D13 (log entries 4, 17). -/
def Obligations.JumpSyntaxRule : Prop :=
  ∀ (n : Numerals) (sym : SymbolTable) (pc : Nat) (label : Text),
    (∀ target, sym.find label = some target →
      (assembleToken sym pc ⟨"j".toList, [label]⟩).map (encode n) = .ok (encJ 2 (BitVec.ofNat 26 (target / 2 ^ 2)))) ∧
    (sym.find label = none → assembleToken sym pc ⟨"j".toList, [label]⟩ = .error (.undefinedLabel label))

/-- 30_encoding.md section 5 (R63), 42_itype.md section 2: a `beq` whose label is in reach assembles to the immediate whose
branch target, as the hardware computes it, is the label; an undefined label fails. -/
def Obligations.AssembledBranchReachesItsLabel : Prop :=
  ∀ (sym : SymbolTable) (pc target : Nat) (label : Text) (rs rt : Reg),
    (sym.find label = some target → pc % 4 = 0 → target % 4 = 0 → target < 2 ^ 32 →
      target ≤ pc + 131072 → pc ≤ target + 131068 →
      ∃ imm, assembleToken sym pc ⟨"beq".toList, [regName rs, regName rt, label]⟩ = .ok (.beq rs rt imm) ∧
        branchTarget (BitVec.ofNat 32 pc) imm = BitVec.ofNat 32 target) ∧
    (sym.find label = none →
      assembleToken sym pc ⟨"beq".toList, [regName rs, regName rt, label]⟩ = .error (.undefinedLabel label))

/-- 30_encoding.md section 5 (R64): `addi rt, rs, imm` keeps the low 16 bits of the two's complement of a decimal `imm`, so
literals that differ by 65536 give the same word. That a literal is read as decimal is the model's choice (log entry 23). -/
def Obligations.AddImmediateSyntaxRule : Prop :=
  ∀ (n : Numerals) (sym : SymbolTable) (pc : Nat) (rt rs : Reg) (imm : Text) (v : Int), decimal imm = some v →
    ∃ i : BitVec 16, i.toNat = v % 65536 ∧
      (assembleToken sym pc ⟨"addi".toList, [regName rt, regName rs, imm]⟩).map (encode n) = .ok (encI n.opAddi rs rt i)

/-- 30_encoding.md section 5 (R62): `lw rt, offset(rs)`, and the same text without its closing parenthesis is a format error.
That an offset is read as decimal is the model's choice (log entry 23). -/
def Obligations.LoadWordSyntaxRule : Prop :=
  ∀ (n : Numerals) (sym : SymbolTable) (pc : Nat) (rt rs : Reg) (offset : Text) (v : Int), decimal offset = some v →
    (assembleToken sym pc ⟨"lw".toList, [regName rt, offset ++ '(' :: regName rs ++ [')']]⟩).map (encode n) =
      .ok (encI n.opLw rs rt (BitVec.ofInt 16 v)) ∧
    assembleToken sym pc ⟨"lw".toList, [regName rt, offset ++ '(' :: regName rs]⟩ = .error (.format "lw".toList)

/-- 30_encoding.md section 4 (R57), 95_test_vectors.md S2: "assembling a program then re-decoding every emitted word recovers"
its instructions, all in the assembler's form (`shamt = 0`). -/
def Obligations.AssembledWordsDecodeToTheirInstructions : Prop :=
  ∀ (n : Numerals) (src : Text) (ws : List Word), n.Legal → assemble n src = .ok ws →
    ∃ is, assembleInstrs src = .ok is ∧ ws.map (decode n) = is.map Decoded.instr ∧ ∀ i ∈ is, i.wf = true
end

