-- ==== Sys2Proof/Laws/State.lean ====
section
/-! SUPPORT. One lemma per field per update of the state, each true by definition, so that no later proof unfolds a record
update; and what a register read gives after each update. -/
namespace Sys2Proof.Machine

/-! ### `setPc`, `advancePc` -/

@[simp] theorem State.setPc_pc (s : State) (t : Word) : (s.setPc t).pc = t := rfl
@[simp] theorem State.setPc_config (s : State) (t : Word) : (s.setPc t).config = s.config := rfl
@[simp] theorem State.setPc_imem (s : State) (t : Word) : (s.setPc t).imem = s.imem := rfl
@[simp] theorem State.setPc_regs (s : State) (t : Word) : (s.setPc t).regs = s.regs := rfl
@[simp] theorem State.setPc_mem (s : State) (t : Word) : (s.setPc t).mem = s.mem := rfl
@[simp] theorem State.setPc_executed (s : State) (t : Word) : (s.setPc t).executed = s.executed := rfl
@[simp] theorem State.setPc_status (s : State) (t : Word) : (s.setPc t).status = s.status := rfl
@[simp] theorem State.setPc_report (s : State) (t : Word) : (s.setPc t).report = s.report := rfl
@[simp] theorem State.setPc_reportLog (s : State) (t : Word) : (s.setPc t).reportLog = s.reportLog := rfl
@[simp] theorem State.setPc_readReg (s : State) (t : Word) (r : Reg) : (s.setPc t).readReg r = s.readReg r := rfl
@[simp] theorem State.setPc_memByte (s : State) (t : Word) (a : Nat) : (s.setPc t).memByte a = s.memByte a := rfl
@[simp] theorem State.advancePc_eq (s : State) : s.advancePc = s.setPc (s.pc + 4) := rfl

/-! ### `writeReg` -/

@[simp] theorem State.writeReg_pc (s : State) (i : Reg) (v : Word) : (s.writeReg i v).pc = s.pc := by
  unfold State.writeReg; split <;> rfl
@[simp] theorem State.writeReg_config (s : State) (i : Reg) (v : Word) : (s.writeReg i v).config = s.config := by
  unfold State.writeReg; split <;> rfl
@[simp] theorem State.writeReg_imem (s : State) (i : Reg) (v : Word) : (s.writeReg i v).imem = s.imem := by
  unfold State.writeReg; split <;> rfl
@[simp] theorem State.writeReg_mem (s : State) (i : Reg) (v : Word) : (s.writeReg i v).mem = s.mem := by
  unfold State.writeReg; split <;> rfl
@[simp] theorem State.writeReg_executed (s : State) (i : Reg) (v : Word) : (s.writeReg i v).executed = s.executed := by
  unfold State.writeReg; split <;> rfl
@[simp] theorem State.writeReg_status (s : State) (i : Reg) (v : Word) : (s.writeReg i v).status = s.status := by
  unfold State.writeReg; split <;> rfl
@[simp] theorem State.writeReg_report (s : State) (i : Reg) (v : Word) : (s.writeReg i v).report = s.report := by
  unfold State.writeReg; split <;> rfl
@[simp] theorem State.writeReg_reportLog (s : State) (i : Reg) (v : Word) : (s.writeReg i v).reportLog = s.reportLog := by
  unfold State.writeReg; split <;> rfl
@[simp] theorem State.writeReg_memByte (s : State) (i : Reg) (v : Word) (a : Nat) :
    (s.writeReg i v).memByte a = s.memByte a := by
  simp [State.memByte]

/-! ### `memWrite` -/

@[simp] theorem State.memWrite_pc (s : State) (a v : Word) : (s.memWrite a v).pc = s.pc := by
  unfold State.memWrite; split <;> rfl
@[simp] theorem State.memWrite_config (s : State) (a v : Word) : (s.memWrite a v).config = s.config := by
  unfold State.memWrite; split <;> rfl
@[simp] theorem State.memWrite_imem (s : State) (a v : Word) : (s.memWrite a v).imem = s.imem := by
  unfold State.memWrite; split <;> rfl
@[simp] theorem State.memWrite_regs (s : State) (a v : Word) : (s.memWrite a v).regs = s.regs := by
  unfold State.memWrite; split <;> rfl
@[simp] theorem State.memWrite_executed (s : State) (a v : Word) : (s.memWrite a v).executed = s.executed := by
  unfold State.memWrite; split <;> rfl
@[simp] theorem State.memWrite_status (s : State) (a v : Word) : (s.memWrite a v).status = s.status := by
  unfold State.memWrite; split <;> rfl
@[simp] theorem State.memWrite_report (s : State) (a v : Word) : (s.memWrite a v).report = s.report := by
  unfold State.memWrite; split <;> rfl
@[simp] theorem State.memWrite_reportLog (s : State) (a v : Word) : (s.memWrite a v).reportLog = s.reportLog := by
  unfold State.memWrite; split <;> rfl
@[simp] theorem State.memWrite_readReg (s : State) (a v : Word) (r : Reg) : (s.memWrite a v).readReg r = s.readReg r := by
  simp [State.readReg]

/-! ### `emit`, `clearReport` -/

@[simp] theorem State.emit_pc (s : State) (e : Report) : (s.emit e).pc = s.pc := rfl
@[simp] theorem State.emit_config (s : State) (e : Report) : (s.emit e).config = s.config := rfl
@[simp] theorem State.emit_imem (s : State) (e : Report) : (s.emit e).imem = s.imem := rfl
@[simp] theorem State.emit_regs (s : State) (e : Report) : (s.emit e).regs = s.regs := rfl
@[simp] theorem State.emit_mem (s : State) (e : Report) : (s.emit e).mem = s.mem := rfl
@[simp] theorem State.emit_executed (s : State) (e : Report) : (s.emit e).executed = s.executed := rfl
@[simp] theorem State.emit_status (s : State) (e : Report) : (s.emit e).status = s.status := rfl
@[simp] theorem State.emit_report (s : State) (e : Report) : (s.emit e).report = some e := rfl
@[simp] theorem State.emit_reportLog (s : State) (e : Report) : (s.emit e).reportLog = s.reportLog ++ [e] := rfl
@[simp] theorem State.emit_readReg (s : State) (e : Report) (r : Reg) : (s.emit e).readReg r = s.readReg r := rfl
@[simp] theorem State.emit_memByte (s : State) (e : Report) (a : Nat) : (s.emit e).memByte a = s.memByte a := rfl

@[simp] theorem State.clearReport_pc (s : State) : s.clearReport.pc = s.pc := rfl
@[simp] theorem State.clearReport_config (s : State) : s.clearReport.config = s.config := rfl
@[simp] theorem State.clearReport_imem (s : State) : s.clearReport.imem = s.imem := rfl
@[simp] theorem State.clearReport_regs (s : State) : s.clearReport.regs = s.regs := rfl
@[simp] theorem State.clearReport_mem (s : State) : s.clearReport.mem = s.mem := rfl
@[simp] theorem State.clearReport_executed (s : State) : s.clearReport.executed = s.executed := rfl
@[simp] theorem State.clearReport_status (s : State) : s.clearReport.status = s.status := rfl
@[simp] theorem State.clearReport_report (s : State) : s.clearReport.report = none := rfl
@[simp] theorem State.clearReport_reportLog (s : State) : s.clearReport.reportLog = s.reportLog := rfl
@[simp] theorem State.clearReport_readReg (s : State) (r : Reg) : s.clearReport.readReg r = s.readReg r := rfl
@[simp] theorem State.clearReport_memByte (s : State) (a : Nat) : s.clearReport.memByte a = s.memByte a := rfl
@[simp] theorem State.clearReport_fetchWord (s : State) : s.clearReport.fetchWord = s.fetchWord := rfl
@[simp] theorem State.clearReport_stepBudget (s : State) : s.clearReport.stepBudget = s.stepBudget := rfl
@[simp] theorem State.clearReport_effectiveAddress (s : State) (rs : Reg) (imm : BitVec 16) :
    s.clearReport.effectiveAddress rs imm = s.effectiveAddress rs imm := rfl

/-! ### `halt`, `abort` -/

@[simp] theorem State.halt_pc (s : State) : s.halt.pc = s.pc := rfl
@[simp] theorem State.halt_config (s : State) : s.halt.config = s.config := rfl
@[simp] theorem State.halt_imem (s : State) : s.halt.imem = s.imem := rfl
@[simp] theorem State.halt_regs (s : State) : s.halt.regs = s.regs := rfl
@[simp] theorem State.halt_mem (s : State) : s.halt.mem = s.mem := rfl
@[simp] theorem State.halt_executed (s : State) : s.halt.executed = s.executed := rfl
@[simp] theorem State.halt_status (s : State) : s.halt.status = .halted := rfl
@[simp] theorem State.halt_report (s : State) : s.halt.report = s.report := rfl
@[simp] theorem State.halt_reportLog (s : State) : s.halt.reportLog = s.reportLog := rfl

@[simp] theorem State.abort_pc (s : State) : s.abort.pc = s.pc := rfl
@[simp] theorem State.abort_config (s : State) : s.abort.config = s.config := rfl
@[simp] theorem State.abort_imem (s : State) : s.abort.imem = s.imem := rfl
@[simp] theorem State.abort_regs (s : State) : s.abort.regs = s.regs := rfl
@[simp] theorem State.abort_mem (s : State) : s.abort.mem = s.mem := rfl
@[simp] theorem State.abort_executed (s : State) : s.abort.executed = s.executed := rfl
@[simp] theorem State.abort_status (s : State) : s.abort.status = .aborted := rfl
@[simp] theorem State.abort_report (s : State) : s.abort.report = some (.stepBudgetExceeded s.pc s.executed) := rfl
@[simp] theorem State.abort_reportLog (s : State) :
    s.abort.reportLog = s.reportLog ++ [.stepBudgetExceeded s.pc s.executed] := rfl

@[simp] theorem countExecuted_next (t : State) :
    countExecuted (.next t) = .next { t with executed := t.executed + 1 } := rfl

end Sys2Proof.Machine
end

