-- ==== Sys2Proof/Laws/Memory.lean ====
section
/-! SUPPORT. Every memory operation keeps the canonical form, and what a byte reads as after each. -/
namespace Sys2Proof.Machine

@[simp] theorem Memory.read_nil (a : Nat) : Memory.read [] a = Memory.unlisted := rfl

/-- An address below every listed one is not listed. -/
theorem Memory.read_of_lt {m : Memory} {a : Nat} (h : ∀ c ∈ m, a < c.1) : Memory.read m a = Memory.unlisted := by
  induction m with
  | nil => rfl
  | cons c m ih =>
    have hc : c.1 ≠ a := fun e => absurd (h c (by simp)) (by omega)
    simp only [Memory.read, if_neg hc]
    exact ih fun d hd => h d (by simp [hd])

theorem Memory.mem_put {a : Nat} {b : Byte} {m : Memory} {c : Host.Cell} (h : c ∈ Memory.put a b m) :
    c = (a, b) ∨ c ∈ m := by
  unfold Memory.put at h; split at h <;> simp_all

/-- The addresses of a written memory are the old ones and the one written. -/
theorem Memory.mem_write {m : Memory} {a : Nat} {b : Byte} {c : Host.Cell} (h : c ∈ m.write a b) :
    c.1 = a ∨ c ∈ m := by
  induction m with
  | nil => simpa using (Memory.mem_put h).imp_left (congrArg Prod.fst)
  | cons d m ih =>
    simp only [Memory.write] at h
    split at h
    · exact (Memory.mem_put h).imp_left (congrArg Prod.fst)
    · split at h
      · exact (Memory.mem_put h).imp (congrArg Prod.fst) (List.mem_cons_of_mem _)
      · rcases List.mem_cons.1 h with rfl | h
        · simp
        · exact (ih h).imp_right (List.mem_cons_of_mem _)

theorem Memory.wf_put {m : Memory} {a : Nat} {b : Byte} (hm : m.wf) (ha : ∀ c ∈ m, a < c.1) : (Memory.put a b m).wf := by
  unfold Memory.put
  split
  · exact hm
  · rename_i hb
    exact ⟨List.pairwise_cons.2 ⟨ha, hm.1⟩, by simpa using ⟨hb, fun c d hc => hm.2 (c, d) hc⟩⟩

theorem Memory.wf_tail {c : Host.Cell} {m : Memory} (h : Memory.wf (c :: m)) : Memory.wf m :=
  ⟨(List.pairwise_cons.1 h.1).2, fun d hd => h.2 d (List.mem_cons_of_mem _ hd)⟩

/-- A write keeps the canonical form. -/
theorem Memory.wf_write {m : Memory} (hm : m.wf) (a : Nat) (b : Byte) : (m.write a b).wf := by
  induction m with
  | nil => exact Memory.wf_put hm (by simp)
  | cons c m ih =>
    have hlt := (List.pairwise_cons.1 hm.1).1
    simp only [Memory.write]
    split
    · rename_i h
      refine Memory.wf_put hm fun d hd => ?_
      rcases List.mem_cons.1 hd with rfl | hd
      · exact h
      · exact lt_trans h (hlt d hd)
    · split
      · rename_i h; exact Memory.wf_put (Memory.wf_tail hm) fun d hd => h ▸ hlt d hd
      · have ht := ih (Memory.wf_tail hm)
        refine ⟨List.pairwise_cons.2 ⟨fun d hd => ?_, ht.1⟩, fun d hd => ?_⟩
        · rcases Memory.mem_write hd with h | h
          · omega
          · exact hlt d h
        · rcases List.mem_cons.1 hd with rfl | hd
          · exact hm.2 d (by simp)
          · exact ht.2 d hd

theorem Memory.read_put {m : Memory} {a : Nat} (b : Byte) (x : Nat) (ha : ∀ c ∈ m, a < c.1) :
    (Memory.put a b m).read x = if x = a then b else m.read x := by
  unfold Memory.put
  split
  · rename_i hb
    split
    · rename_i h; rw [h, Memory.read_of_lt ha, hb]
    · rfl
  · simp only [Memory.read, eq_comm]

/-- A byte after a write: the written one at its address, every other as before. -/
theorem Memory.read_write {m : Memory} (hm : m.wf) (a : Nat) (b : Byte) (x : Nat) :
    (m.write a b).read x = if x = a then b else m.read x := by
  induction m with
  | nil => exact Memory.read_put b x (by simp)
  | cons c m ih =>
    have hlt := (List.pairwise_cons.1 hm.1).1
    simp only [Memory.write]
    split
    · rename_i h
      refine Memory.read_put b x fun d hd => ?_
      rcases List.mem_cons.1 hd with rfl | hd
      · exact h
      · exact lt_trans h (hlt d hd)
    · split
      · rename_i h
        rw [Memory.read_put b x fun d hd => h ▸ hlt d hd]
        by_cases hx : x = a
        · simp [hx]
        · have : c.1 ≠ x := fun e => hx (by omega)
          simp [hx, Memory.read, this]
      · rename_i h1 h2
        simp only [Memory.read, ih (Memory.wf_tail hm)]
        by_cases hx : c.1 = x
        · have : x ≠ a := by omega
          simp [hx, this]
        · simp [hx]

theorem Memory.wf_nil : Memory.wf [] := by simp [Memory.wf]

/-- Writing several bytes keeps the canonical form. -/
theorem Memory.wf_writeBytes {m : Memory} (hm : m.wf) (a : Nat) (bs : List Byte) : (m.writeBytes a bs).wf := by
  induction bs generalizing m a with
  | nil => exact hm
  | cons b bs ih => exact ih (Memory.wf_write hm a b) (a + 1)

/-- Storing a word keeps the canonical form. -/
theorem Memory.wf_writeWord {m : Memory} (hm : m.wf) (a : Nat) (v : Word) : (m.writeWord a v).wf :=
  Memory.wf_writeBytes hm a _

/-- The addresses after several writes. -/
theorem Memory.mem_writeBytes {m : Memory} {a : Nat} {bs : List Byte} {c : Host.Cell} (h : c ∈ m.writeBytes a bs) :
    (a ≤ c.1 ∧ c.1 < a + bs.length) ∨ c ∈ m := by
  induction bs generalizing m a with
  | nil => exact .inr h
  | cons b bs ih =>
    rcases ih h with ⟨h1, h2⟩ | h
    · exact .inl ⟨by omega, by simp; omega⟩
    · rcases Memory.mem_write h with h | h
      · exact .inl ⟨by omega, by simp; omega⟩
      · exact .inr h

/-- The launch memory is in the canonical form. -/
theorem Memory.wf_preset (size : Nat) (cells : List Host.Cell) : (Memory.preset size cells).wf := by
  suffices h : ∀ m : Memory, m.wf →
      (cells.foldl (fun m c => if c.1 < size then Memory.write m c.1 c.2 else m) m).wf from h [] Memory.wf_nil
  induction cells with
  | nil => exact fun m hm => hm
  | cons c cells ih =>
    intro m hm
    simp only [List.foldl_cons]
    split
    · exact ih _ (Memory.wf_write hm _ _)
    · exact ih _ hm

/-- `MemWrite` keeps the canonical form. -/
theorem State.wf_memWrite {s : State} (hs : s.mem.wf) (a v : Word) : (s.memWrite a v).mem.wf := by
  unfold State.memWrite
  split
  · exact Memory.wf_writeWord hs a.toNat v
  · exact hs

theorem State.reset_mem_wf : State.reset.mem.wf := Memory.wf_nil

end Sys2Proof.Machine
end

