-- ==== Sys2Proof/Laws/Ops.lean ====
section
/-! SUPPORT. What the register and memory operations do, one lemma for each case. -/
namespace Sys2Proof.Machine

/-! ### Registers (10_state.md R13, R14) -/

theorem State.writeReg_hardwired {s : State} {i : Reg} (h : s.config.zeroHardwired = true ∧ i = 0) (v : Word) :
    s.writeReg i v = s := if_pos h

theorem State.readReg_writeReg_self {s : State} {i : Reg} (h : ¬ (s.config.zeroHardwired = true ∧ i = 0)) (v : Word) :
    (s.writeReg i v).readReg i = v := by
  rw [State.writeReg, if_neg h]
  simp [State.readReg]

theorem State.readReg_writeReg_of_ne {s : State} {i r : Reg} (h : r ≠ i) (v : Word) :
    (s.writeReg i v).readReg r = s.readReg r := by
  have hne : i.toNat ≠ r.toNat := fun e => h (BitVec.eq_of_toNat_eq e.symm)
  unfold State.writeReg
  split
  · rfl
  · simp [State.readReg, Vector.getElem_set_ne, hne]

/-! ### Words of memory (20_memory.md R31, R33, R34) -/

theorem byteOfWord_toNat (v : Word) (k : Nat) : (byteOfWord v k).toNat = v.toNat / 2 ^ (8 * (3 - k)) % 256 := by
  simp [byteOfWord]

/-- The bytes the memory operations write are those of `byteOfWord`. -/
theorem wordBytes_eq (v : Word) : wordBytes v = [byteOfWord v 0, byteOfWord v 1, byteOfWord v 2, byteOfWord v 3] := by
  simp only [wordBytes, List.cons.injEq, and_true]
  refine ⟨?_, ?_, ?_, ?_⟩ <;> apply BitVec.eq_of_toNat_eq <;>
    simp [byteOfWord, BitVec.extractLsb'_toNat, Nat.shiftRight_eq_div_pow]

/-- A byte after a word is stored: one of the four stored, or as before. -/
theorem Memory.read_writeWord {m : Memory} (hm : m.wf) (a : Nat) (v : Word) (x : Nat) :
    (m.writeWord a v).read x = if a ≤ x ∧ x < a + 4 then byteOfWord v (x - a) else m.read x := by
  simp only [Memory.writeWord, wordBytes_eq, Memory.writeBytes]
  have h0 := Memory.wf_write hm a (byteOfWord v 0)
  have h1 := Memory.wf_write h0 (a + 1) (byteOfWord v 1)
  have h2 := Memory.wf_write h1 (a + 1 + 1) (byteOfWord v 2)
  rw [Memory.read_write h2, Memory.read_write h1, Memory.read_write h0, Memory.read_write hm]
  by_cases h : a ≤ x ∧ x < a + 4
  · obtain ⟨hl, hu⟩ := h
    obtain rfl | rfl | rfl | rfl : x = a ∨ x = a + 1 ∨ x = a + 2 ∨ x = a + 3 := by omega
    all_goals simp [Nat.add_assoc]
  · rw [if_neg h, if_neg (by omega), if_neg (by omega), if_neg (by omega), if_neg (by omega)]

/-- The number a loaded word is, by its four bytes. -/
theorem Memory.readWord_toNat (m : Memory) (a : Nat) :
    (m.readWord a).toNat = (m.read a).toNat * 2 ^ 24 + (m.read (a + 1)).toNat * 2 ^ 16 +
      (m.read (a + 2)).toNat * 2 ^ 8 + (m.read (a + 3)).toNat := by
  have h1 := (m.read (a + 1)).isLt
  have h2 := (m.read (a + 2)).isLt
  have h3 := (m.read (a + 3)).isLt
  simp only [Memory.readWord, BitVec.toNat_append]
  rw [← Nat.shiftLeft_add_eq_or_of_lt h3, ← Nat.shiftLeft_add_eq_or_of_lt h2, ← Nat.shiftLeft_add_eq_or_of_lt h1]
  simp only [Nat.shiftLeft_eq]
  omega

theorem State.memRead_inRange {s : State} {a : Word} (h : s.inRange a) : s.memRead a = s.mem.readWord a.toNat := if_pos h

theorem State.memRead_outOfRange {s : State} {a : Word} (h : ¬ s.inRange a) : s.memRead a = 0 := if_neg h

theorem State.memWrite_outOfRange {s : State} {a : Word} (h : ¬ s.inRange a) (v : Word) : s.memWrite a v = s := if_neg h

theorem State.memWrite_mem {s : State} {a : Word} (h : s.inRange a) (v : Word) :
    (s.memWrite a v).mem = s.mem.writeWord a.toNat v := by
  simp [State.memWrite, h]

end Sys2Proof.Machine
end

