-- ==== Sys2Proof/Laws/PerInstr.lean ====
section
/-! SUPPORT. Statements made once for each constructor of `Instr`. Family `EncodedOpcode`: the opcode field of an
instruction's word is the opcode that selects it (30_encoding.md R51, R57). -/
namespace Sys2Proof.Laws

/-- The opcode field of a packed word, by its format. -/
theorem opcode_of_bits (op : Selector) (x : Word) (hx : x.toNat < 2 ^ 26) :
    (fields ((op.setWidth 32 <<< 26) ||| x)).opcode = op := by
  have hop : op.toNat * 2 ^ 26 < 2 ^ 32 := by have := op.isLt; omega
  apply BitVec.eq_of_toNat_eq
  simp only [fields, BitVec.extractLsb'_toNat, BitVec.toNat_or, BitVec.toNat_shiftLeft, BitVec.toNat_setWidth]
  have h1 : (op.toNat % 2 ^ 32) <<< 26 % 2 ^ 32 = op.toNat <<< 26 := by
    have := op.isLt
    rw [Nat.mod_eq_of_lt (by omega : op.toNat < 2 ^ 32), Nat.shiftLeft_eq, Nat.mod_eq_of_lt hop]
  rw [h1, ← Nat.shiftLeft_add_eq_or_of_lt hx, Nat.shiftLeft_eq, Nat.shiftRight_eq_div_pow]
  have := op.isLt
  omega

/-- A field of `k` bits shifted left by `n`, below bit 26. -/
theorem shifted_lt {k : Nat} (f : BitVec k) (n : Nat) (h : k + n ≤ 26) : (f.setWidth 32 <<< n : Word).toNat < 2 ^ 26 := by
  rw [BitVec.toNat_shiftLeft, BitVec.toNat_setWidth, Nat.shiftLeft_eq]
  have hf : f.toNat < 2 ^ k := f.isLt
  have hm : f.toNat % 2 ^ 32 ≤ f.toNat := Nat.mod_le _ _
  have hp : f.toNat * 2 ^ n < 2 ^ 26 :=
    calc f.toNat * 2 ^ n < 2 ^ k * 2 ^ n := Nat.mul_lt_mul_of_pos_right hf (Nat.two_pow_pos n)
      _ = 2 ^ (k + n) := (Nat.pow_add 2 k n).symm
      _ ≤ 2 ^ 26 := Nat.pow_le_pow_right (by omega) h
  calc f.toNat % 2 ^ 32 * 2 ^ n % 2 ^ 32 ≤ f.toNat % 2 ^ 32 * 2 ^ n := Nat.mod_le _ _
    _ ≤ f.toNat * 2 ^ n := Nat.mul_le_mul_right _ hm
    _ < 2 ^ 26 := hp

theorem or_lt {x y : Word} (hx : x.toNat < 2 ^ 26) (hy : y.toNat < 2 ^ 26) : (x ||| y).toNat < 2 ^ 26 := by
  rw [BitVec.toNat_or]; exact Nat.or_lt_two_pow hx hy

theorem field_lt {k : Nat} (f : BitVec k) (h : k ≤ 26) : (f.setWidth 32 : Word).toNat < 2 ^ 26 := by
  have hk : f.toNat < 2 ^ k := f.isLt
  have := Nat.pow_le_pow_right (n := 2) (by omega) h
  rw [BitVec.toNat_setWidth]
  exact lt_of_le_of_lt (Nat.mod_le _ _) (by omega)

theorem packR_opcode (rs rt rd : Reg) (h : BitVec 5) (fn : Selector) : (fields (packR rs rt rd h fn)).opcode = 0 := by
  have := opcode_of_bits 0 (packR rs rt rd h fn)
    (or_lt (or_lt (or_lt (or_lt (shifted_lt rs 21 (by omega)) (shifted_lt rt 16 (by omega)))
      (shifted_lt rd 11 (by omega))) (shifted_lt h 6 (by omega))) (field_lt fn (by omega)))
  simpa using this

theorem encI_opcode (op : Selector) (rs rt : Reg) (imm : BitVec 16) : (fields (encI op rs rt imm)).opcode = op := by
  have := opcode_of_bits op ((rs.setWidth 32 <<< 21) ||| (rt.setWidth 32 <<< 16) ||| imm.setWidth 32)
    (or_lt (or_lt (shifted_lt rs 21 (by omega)) (shifted_lt rt 16 (by omega))) (field_lt imm (by omega)))
  rwa [← BitVec.or_assoc, ← BitVec.or_assoc] at this

theorem encJ_opcode (op : Selector) (a : BitVec 26) : (fields (encJ op a)).opcode = op :=
  opcode_of_bits op _ (field_lt a (by omega))

/-- The opcode field of the instruction's word is the opcode that selects it. -/
def EncodedOpcode.Statement (i : Instr) : Prop := ∀ n : Numerals, (fields (encode n i)).opcode = i.opcode n

theorem EncodedOpcode.add (rd rs rt : Reg) (h : BitVec 5) : EncodedOpcode.Statement (.add rd rs rt h) :=
  fun _ => packR_opcode ..
theorem EncodedOpcode.sub (rd rs rt : Reg) (h : BitVec 5) : EncodedOpcode.Statement (.sub rd rs rt h) :=
  fun _ => packR_opcode ..
theorem EncodedOpcode.and (rd rs rt : Reg) (h : BitVec 5) : EncodedOpcode.Statement (.and rd rs rt h) :=
  fun _ => packR_opcode ..
theorem EncodedOpcode.or (rd rs rt : Reg) (h : BitVec 5) : EncodedOpcode.Statement (.or rd rs rt h) :=
  fun _ => packR_opcode ..
theorem EncodedOpcode.nor (rd rs rt : Reg) (h : BitVec 5) : EncodedOpcode.Statement (.nor rd rs rt h) :=
  fun _ => packR_opcode ..
theorem EncodedOpcode.slt (rd rs rt : Reg) (h : BitVec 5) : EncodedOpcode.Statement (.slt rd rs rt h) :=
  fun _ => packR_opcode ..
theorem EncodedOpcode.beq (rs rt : Reg) (imm : BitVec 16) : EncodedOpcode.Statement (.beq rs rt imm) :=
  fun _ => encI_opcode ..
theorem EncodedOpcode.addi (rt rs : Reg) (imm : BitVec 16) : EncodedOpcode.Statement (.addi rt rs imm) :=
  fun _ => encI_opcode ..
theorem EncodedOpcode.lw (rt rs : Reg) (imm : BitVec 16) : EncodedOpcode.Statement (.lw rt rs imm) :=
  fun _ => encI_opcode ..
theorem EncodedOpcode.sw (rt rs : Reg) (imm : BitVec 16) : EncodedOpcode.Statement (.sw rt rs imm) :=
  fun _ => encI_opcode ..
theorem EncodedOpcode.j (a : BitVec 26) : EncodedOpcode.Statement (.j a) := fun _ => encJ_opcode ..
theorem EncodedOpcode.j3 (a : BitVec 26) : EncodedOpcode.Statement (.j3 a) := fun _ => encJ_opcode ..

end Sys2Proof.Laws
end

