-- ==== Sys2Proof/Laws/Step.lean ====
section
/-! SUPPORT. What each shared operation, `exec`, a cycle and a step can do, said once; later proofs cite these and do not
unfold the machine. -/
namespace Sys2Proof.Machine

/-! ### Instructions -/

theorem exec_add (s : State) (rd rs rt : Reg) (h : BitVec 5) :
    exec (.add rd rs rt h) s = .next ((s.writeReg rd (s.readReg rs + s.readReg rt)).setPc (s.pc + 4)) := by
  simp [exec, execAdd, State.writeBack]
theorem exec_sub (s : State) (rd rs rt : Reg) (h : BitVec 5) :
    exec (.sub rd rs rt h) s = .next ((s.writeReg rd (s.readReg rs - s.readReg rt)).setPc (s.pc + 4)) := by
  simp [exec, execSub, State.writeBack]
theorem exec_and (s : State) (rd rs rt : Reg) (h : BitVec 5) :
    exec (.and rd rs rt h) s = .next ((s.writeReg rd (s.readReg rs &&& s.readReg rt)).setPc (s.pc + 4)) := by
  simp [exec, execAnd, State.writeBack]
theorem exec_or (s : State) (rd rs rt : Reg) (h : BitVec 5) :
    exec (.or rd rs rt h) s = .next ((s.writeReg rd (s.readReg rs ||| s.readReg rt)).setPc (s.pc + 4)) := by
  simp [exec, execOr, State.writeBack]
theorem exec_nor (s : State) (rd rs rt : Reg) (h : BitVec 5) :
    exec (.nor rd rs rt h) s = .next ((s.writeReg rd (~~~(s.readReg rs ||| s.readReg rt))).setPc (s.pc + 4)) := by
  simp [exec, execNor, State.writeBack]
theorem exec_slt (s : State) (rd rs rt : Reg) (h : BitVec 5) :
    exec (.slt rd rs rt h) s = .next ((s.writeReg rd (sltValue (s.readReg rs) (s.readReg rt))).setPc (s.pc + 4)) := by
  simp [exec, execSlt, State.writeBack]
theorem exec_addi (s : State) (rt rs : Reg) (imm : BitVec 16) :
    exec (.addi rt rs imm) s = .next ((s.writeReg rt (s.readReg rs + sext16 imm)).setPc (s.pc + 4)) := by
  simp [exec, execAddi, State.writeBack]
theorem exec_lw (s : State) (rt rs : Reg) (imm : BitVec 16) :
    exec (.lw rt rs imm) s = .next ((s.writeReg rt (s.memRead (s.effectiveAddress rs imm))).setPc (s.pc + 4)) := by
  simp [exec, execLw, State.writeBack]
theorem exec_sw (s : State) (rt rs : Reg) (imm : BitVec 16) :
    exec (.sw rt rs imm) s = .next ((s.memWrite (s.effectiveAddress rs imm) (s.readReg rt)).setPc (s.pc + 4)) := by
  simp [exec, execSw]
theorem exec_j (s : State) (a : BitVec 26) : exec (.j a) s = .next (s.setPc (jumpTarget s.pc a)) := rfl
theorem exec_j3 (s : State) (a : BitVec 26) : exec (.j3 a) s = .next (s.setPc (jumpTarget s.pc a)) := rfl

theorem exec_beq (s : State) (rs rt : Reg) (imm : BitVec 16) :
    exec (.beq rs rt imm) s =
      .next (s.setPc (if s.readReg rs = s.readReg rt then branchTarget s.pc imm else s.pc + 4)) := by
  simp only [exec, execBeq, beqTaken, beq_iff_eq, State.advancePc_eq]
  split <;> rfl

/-- The state an executed word leaves differs from the one before in one of four ways: one register and the pc; one word of
memory and the pc; the pc alone; or one event and the pc. -/
theorem execWord_cases (w : Word) (s : State) :
    (∃ i d v, decode s.config.numerals w = .instr i ∧ i.dest? = some d ∧
      execWord w s = .next ((s.writeReg d v).setPc (s.pc + 4))) ∨
    (∃ rt rs imm, decode s.config.numerals w = .instr (.sw rt rs imm) ∧
      execWord w s = .next ((s.memWrite (s.effectiveAddress rs imm) (s.readReg rt)).setPc (s.pc + 4))) ∨
    (∃ i t, decode s.config.numerals w = .instr i ∧ i.dest? = none ∧ i.store? s = none ∧
      ((t = s.pc + 4) ∨ (∃ imm, t = branchTarget s.pc imm) ∨ ∃ a, t = jumpTarget s.pc a) ∧
      execWord w s = .next (s.setPc t)) ∨
    (∃ e, (decode s.config.numerals w).instr? = none ∧ (e = .unknownFunct s.pc w ∨ e = .unknownOpcode s.pc w) ∧
      execWord w s = .next ((s.emit e).setPc (s.pc + 4))) := by
  unfold execWord
  cases h : decode s.config.numerals w with
  | unknownFunct => exact .inr (.inr (.inr ⟨_, rfl, .inl rfl, rfl⟩))
  | unknownOpcode => exact .inr (.inr (.inr ⟨_, rfl, .inr rfl, rfl⟩))
  | instr i =>
    cases i with
    | add rd rs rt a => exact .inl ⟨_, _, _, rfl, rfl, exec_add s rd rs rt a⟩
    | sub rd rs rt a => exact .inl ⟨_, _, _, rfl, rfl, exec_sub s rd rs rt a⟩
    | and rd rs rt a => exact .inl ⟨_, _, _, rfl, rfl, exec_and s rd rs rt a⟩
    | or rd rs rt a => exact .inl ⟨_, _, _, rfl, rfl, exec_or s rd rs rt a⟩
    | nor rd rs rt a => exact .inl ⟨_, _, _, rfl, rfl, exec_nor s rd rs rt a⟩
    | slt rd rs rt a => exact .inl ⟨_, _, _, rfl, rfl, exec_slt s rd rs rt a⟩
    | addi rt rs imm => exact .inl ⟨_, _, _, rfl, rfl, exec_addi s rt rs imm⟩
    | lw rt rs imm => exact .inl ⟨_, _, _, rfl, rfl, exec_lw s rt rs imm⟩
    | sw rt rs imm => exact .inr (.inl ⟨rt, rs, imm, rfl, exec_sw s rt rs imm⟩)
    | beq rs rt imm =>
      refine .inr (.inr (.inl ⟨_, _, rfl, rfl, rfl, ?_, exec_beq s rs rt imm⟩))
      split
      · exact .inr (.inl ⟨imm, rfl⟩)
      · exact .inl rfl
    | j a => exact .inr (.inr (.inl ⟨_, _, rfl, rfl, rfl, .inr (.inr ⟨a, rfl⟩), exec_j s a⟩))
    | j3 a => exact .inr (.inr (.inl ⟨_, _, rfl, rfl, rfl, .inr (.inr ⟨a, rfl⟩), exec_j3 s a⟩))

/-! ### The cycle -/

/-- There is no word to fetch exactly when the halt test of 40_decode_dispatch.md R71 holds. -/
theorem fetchWord_eq_none_iff (s : State) : s.fetchWord = none ↔ 4 * s.wordCount ≤ s.pc.toNat := by
  simp only [State.fetchWord, State.wordCount, List.getElem?_eq_none_iff]
  omega

theorem fetchWord_inside {s : State} {w : Word} (h : s.fetchWord = some w) : s.pc.toNat < 4 * s.wordCount := by
  by_contra hc
  simp [(fetchWord_eq_none_iff s).2 (by omega)] at h

theorem step_legal {s : State} (h : s.LaunchLegal) : step s = cycle s := if_pos h

/-- A state that executes `w` steps to what `w` does, counted. -/
theorem step_executes {s : State} {w : Word} (h : s.Executes w) : step s = countExecuted (execWord w s.clearReport) := by
  rw [step_legal h.legal]
  simp only [cycle, h.running, runningCycle, h.fetched]
  rw [if_neg (by have := h.budget; omega)]

/-- Everything a step that answers a next state can have done: a terminal cycle, the halt, the abort, or the execution of one
word, counted. -/
theorem step_cases {s t : State} (h : step s = .next t) :
    s.LaunchLegal ∧
    ((s.status ≠ .running ∧ t = s.clearReport) ∨
     (s.status = .running ∧ 4 * s.wordCount ≤ s.pc.toNat ∧ t = s.clearReport.halt) ∨
     (s.status = .running ∧ s.pc.toNat < 4 * s.wordCount ∧ s.stepBudget ≤ s.executed ∧ t = s.clearReport.abort) ∨
     (∃ w u, s.Executes w ∧ execWord w s.clearReport = .next u ∧ t = { u with executed := u.executed + 1 })) := by
  by_cases hl : s.LaunchLegal
  · refine ⟨hl, ?_⟩
    rw [step_legal hl] at h
    cases hs : s.status with
    | halted => exact .inl ⟨by simp, by simpa [cycle, hs, eq_comm] using h⟩
    | aborted => exact .inl ⟨by simp, by simpa [cycle, hs, eq_comm] using h⟩
    | running =>
      simp only [cycle, hs, runningCycle] at h
      cases hf : s.fetchWord with
      | none =>
        rw [hf] at h
        exact .inr (.inl ⟨rfl, (fetchWord_eq_none_iff s).1 hf, by simpa [eq_comm] using h⟩)
      | some w =>
        rw [hf] at h
        simp only at h
        split at h
        · rename_i hb
          exact .inr (.inr (.inl ⟨rfl, fetchWord_inside hf, hb, by simpa [eq_comm] using h⟩))
        · rename_i hb
          cases hu : execWord w s.clearReport with
          | next u =>
            rw [hu] at h
            exact .inr (.inr (.inr ⟨w, u, ⟨hl, hs, hf, by omega⟩, hu, by simpa [eq_comm] using h⟩))
          | fault f => rw [hu] at h; simp [countExecuted] at h
          | refused r => rw [hu] at h; simp [countExecuted] at h
  · simp [step, hl] at h

/-! ### Runs -/

theorem run_zero (s : State) : Host.Core.run Sys2Proof.core 0 s = .next s := rfl

/-- A run whose first step answers a next state goes on from it. -/
theorem run_succ {s t : State} (h : step s = .next t) (k : Nat) :
    Host.Core.run Sys2Proof.core (k + 1) s = Host.Core.run Sys2Proof.core k t := by
  have h' : Sys2Proof.core.step s = .next t := h
  simp only [Host.Core.run, h']

/-- A run that answers a next state after `k + 1` steps answered one after its first. -/
theorem run_succ_cases {s t : State} {k : Nat} (h : Host.Core.run Sys2Proof.core (k + 1) s = .next t) :
    ∃ u, step s = .next u ∧ Host.Core.run Sys2Proof.core k u = .next t := by
  cases hs : step s with
  | next u => exact ⟨u, rfl, (run_succ hs k).symm.trans h⟩
  | fault f =>
    have h' : Sys2Proof.core.step s = .fault f := hs
    simp only [Host.Core.run, h'] at h
    cases h
  | refused r =>
    have h' : Sys2Proof.core.step s = .refused r := hs
    simp only [Host.Core.run, h'] at h
    cases h

/-- What holds of a state and is kept by every step holds after every run from it. -/
theorem run_keeps {P : State → Prop} (hstep : ∀ s t, P s → step s = .next t → P t) {k : Nat} {s t : State} (hs : P s)
    (h : Host.Core.run Sys2Proof.core k s = .next t) : P t := by
  induction k generalizing s with
  | zero => rw [run_zero] at h; cases h; exact hs
  | succ k ih =>
    obtain ⟨u, hu, hk⟩ := run_succ_cases h
    exact ih (hstep s u hs hu) hk

end Sys2Proof.Machine
end

