-- ==== Sys2Proof/Tests/Slice0.lean ====
section
/-! SUPPORT. Tests and witnesses. Every expected value is copied from spec/95_test_vectors.md (the vector is named) or worked
out by hand from the rule named; the words are the spec's, in the order opcode, rs, rt, rd or immediate. -/
namespace Sys2Proof.Tests
open Sys2Proof Sys2Proof.Machine

/-! ### Helpers -/

/-- The launch defaults of 95_test_vectors.md with a pc, some registers and some bytes of memory. -/
def start (pc : Word) (regs : List (Reg × Word)) (mem : List Host.Cell) : State :=
  regs.foldl (fun s c => s.writeReg c.1 c.2) { State.reset with pc := pc, mem := Memory.preset 4096 mem }

/-- One application of the step of 40_decode_dispatch.md R73 to R78 to a word, seen through `view`. -/
def after {α : Type} (w : Word) (s : State) (view : State → α) : Option α :=
  match execWord w s with
  | .next t => some (view t)
  | .fault _ | .refused _ => none

/-- One cycle, seen through `view`. -/
def afterStep {α : Type} (s : State) (view : State → α) : Option α :=
  match step s with
  | .next t => some (view t)
  | .fault _ | .refused _ => none

/-- A register and the pc. -/
def regPc (r : Reg) (s : State) : Word × Word := (s.readReg r, s.pc)

/-- A launch of these words with everything else default. -/
def program (ws : List Word) : State := State.launch {} ws (Vector.replicate 32 0) []

/-- The same with register 0 hard-wired. -/
def hardwired (ws : List Word) : State := State.launch { zeroHardwired := true } ws (Vector.replicate 32 0) []

/-! ### Well-formedness: the smoke test, an ill-formed term for each check -/

theorem test_wf_accepts_shamt_zero : (Instr.add 10 8 9 0).wf = true ∧ (Instr.lw 31 31 0xFFFF).wf = true := by decide
theorem test_wf_refuses_shamt :
    (Instr.add 10 8 9 31).wf = false ∧ (Instr.sub 10 8 9 1).wf = false ∧ (Instr.and 10 8 9 1).wf = false ∧
    (Instr.or 10 8 9 1).wf = false ∧ (Instr.nor 10 8 9 1).wf = false ∧ (Instr.slt 10 8 9 16).wf = false := by decide
theorem test_numerals_defaults_are_legal : Numerals.Legal {} := by decide
theorem test_numerals_refuse_equal_opcodes : ¬ Numerals.Legal { opBeq := 35 } := by decide
theorem test_numerals_refuse_fixed_opcodes :
    ¬ Numerals.Legal { opSw := 0 } ∧ ¬ Numerals.Legal { opLw := 2 } ∧ ¬ Numerals.Legal { opAddi := 3 } := by decide
theorem test_numerals_refuse_equal_functs : ¬ Numerals.Legal { fnSub := 32 } := by decide
theorem test_config_refuses_large_memory : Config.Legal { memSize := 2 ^ 32 } 0 ∧ ¬ Config.Legal { memSize := 2 ^ 32 + 1 } 0 := by decide
theorem test_config_refuses_long_program : Config.Legal {} (2 ^ 30 - 1) ∧ ¬ Config.Legal {} (2 ^ 30) := by decide

/-! ### Decoding: one word for each constructor, bit by bit from 30_encoding.md R45 to R51 -/

theorem test_decode_add : decode {} 0b000000_01000_01001_01010_00000_100000#32 = .instr (.add 10 8 9 0) := by decide
theorem test_decode_sub : decode {} 0b000000_01000_01001_01010_00000_100010#32 = .instr (.sub 10 8 9 0) := by decide
theorem test_decode_and : decode {} 0b000000_01000_01001_01010_00000_100100#32 = .instr (.and 10 8 9 0) := by decide
theorem test_decode_or : decode {} 0b000000_01000_01001_01010_00000_100101#32 = .instr (.or 10 8 9 0) := by decide
theorem test_decode_nor : decode {} 0b000000_01000_01001_01010_00000_100111#32 = .instr (.nor 10 8 9 0) := by decide
theorem test_decode_slt : decode {} 0b000000_01001_01000_01010_00000_101010#32 = .instr (.slt 10 9 8 0) := by decide
theorem test_decode_beq : decode {} 0b000100_01000_01001_1111111111111110#32 = .instr (.beq 8 9 0xFFFE) := by decide
theorem test_decode_addi : decode {} 0b001000_00000_01000_0000000000000101#32 = .instr (.addi 8 0 5) := by decide
theorem test_decode_lw : decode {} 0b100011_01000_01001_1111111111111100#32 = .instr (.lw 9 8 0xFFFC) := by decide
theorem test_decode_sw : decode {} 0b101011_01000_01001_0000000000000100#32 = .instr (.sw 9 8 4) := by decide
theorem test_decode_j : decode {} 0b000010_11111111111111111111111111#32 = .instr (.j 0x3FFFFFF) := by decide
theorem test_decode_j3 : decode {} 0b000011_00000000000000000000000010#32 = .instr (.j3 2) := by decide
/-- V-U1, V-U4, V-K1, V-K2: the two reserved spaces. -/
theorem test_decode_reserved :
    decode {} 0x00000000 = .unknownFunct ∧ decode {} 0x03E00008 = .unknownFunct ∧
    decode {} 0x14000000 = .unknownOpcode ∧ decode {} 0xFFFFFFFF = .unknownOpcode := by decide
theorem test_decodeTableWord :
    decodeTableWord 32 0x01095020 = some (.add 10 8 9 0) ∧ decodeTableWord 32 0x14000000 = none := by decide
theorem test_encode_spec_words :
    encode {} (.add 10 8 9 0) = 0x01095020 ∧ encode {} (.sw 8 0 8) = 0xAC080008 ∧ encode {} (.beq 8 9 0xFFFE) = 0x1109FFFE ∧
    encode {} (.j 2) = 0x08000002 := by decide

/-! ### Single steps -/

/-- V-A2 -/
theorem test_add_wraps_into_sign : after 0x01095020 (start 0 [(8, 0x7FFFFFFF), (9, 1)] []) (regPc 10) = some (0x80000000, 4) := by decide
/-- V-A4: a source is the destination -/
theorem test_add_in_place : after 0x01084020 (start 0x10 [(8, 0x80000001)] []) (regPc 8) = some (2, 0x14) := by decide
/-- V-S1 -/
theorem test_sub_operand_order : after 0x01095022 (start 0 [(8, 5), (9, 10)] []) (regPc 10) = some (0xFFFFFFFB, 4) := by decide
/-- V-S3 -/
theorem test_sub_wraps_over_sign : after 0x01095022 (start 0 [(8, 0x80000000), (9, 1)] []) (regPc 10) = some (0x7FFFFFFF, 4) := by decide
/-- V-N1 -/
theorem test_and : after 0x01095024 (start 0 [(8, 0xFF00FF00), (9, 0x0FF00FF0)] []) (regPc 10) = some (0x0F000F00, 4) := by decide
/-- V-O1 -/
theorem test_or : after 0x01095025 (start 0 [(8, 0xFF00FF00), (9, 0x0FF00FF0)] []) (regPc 10) = some (0xFFF0FFF0, 4) := by decide
/-- V-X1 -/
theorem test_nor : after 0x01095027 (start 0 [(8, 0xFF00FF00), (9, 0x0FF00FF0)] []) (regPc 10) = some (0x000F000F, 4) := by decide
/-- V-X2 -/
theorem test_nor_of_zeros : after 0x00005027 (start 0 [] []) (regPc 10) = some (0xFFFFFFFF, 4) := by decide
/-- V-L2, V-L4: the comparison is signed -/
theorem test_slt_is_signed :
    after 0x0109502A (start 0 [(8, 0x80000000), (9, 0x7FFFFFFF)] []) (regPc 10) = some (1, 4) ∧
    after 0x0109502A (start 0 [(8, 0xFFFFFFFF)] []) (regPc 10) = some (1, 4) := by decide
/-- V-L3, V-L5: not less, and equal; the old value of the destination goes -/
theorem test_slt_not_less :
    after 0x0109502A (start 0 [(8, 0x7FFFFFFF), (9, 0x80000000)] []) (regPc 10) = some (0, 4) ∧
    after 0x0109502A (start 0 [(8, 7), (9, 7), (10, 0x55)] []) (regPc 10) = some (0, 4) := by decide
/-- V-B1, V-B2 -/
theorem test_beq_both_ways :
    after 0x1109FFFE (start 4 [(8, 3), (9, 3)] []) State.pc = some 0 ∧
    after 0x1109FFFE (start 4 [(8, 3), (9, 4)] []) State.pc = some 8 := by decide
/-- V-B3, V-B5, V-B6, V-B7: to itself, farthest forward, farthest back, below zero -/
theorem test_beq_targets :
    after 0x1000FFFF (start 0x20 [] []) State.pc = some 0x20 ∧ after 0x10007FFF (start 0x20 [] []) State.pc = some 0x00020020 ∧
    after 0x10008000 (start 0x20 [] []) State.pc = some 0xFFFE0024 ∧ after 0x1000FFFE (start 0 [] []) State.pc = some 0xFFFFFFFC := by decide
/-- V-I4: the immediate is sign-extended -/
theorem test_addi_sign_extends : after 0x21088000 (start 0 [] []) (regPc 8) = some (0xFFFF8000, 4) := by decide
/-- V-I6 -/
theorem test_addi_wraps : after 0x21097FFF (start 0 [(8, 0xFFFF8001)] []) (regPc 9) = some (0, 4) := by decide
/-- V-W2, V-W8: misaligned, and an address that wraps to 0 -/
theorem test_lw_big_endian :
    after 0x8C0A000A (start 0 [] [(10, 0x12), (11, 0x34)]) (regPc 10) = some (0x12340000, 4) ∧
    after 0x8D090004 (start 0 [(8, 0xFFFFFFFC)] [(0, 1), (1, 2), (2, 3), (3, 4)]) (regPc 9) = some (0x01020304, 4) := by decide
/-- V-W3, V-W4: the last word in range and the first out of range, where the destination takes 0 -/
theorem test_lw_end_of_memory :
    after 0x8C0C0FFC (start 0 [(12, 0x77)] [(4092, 0xAA), (4093, 0xBB), (4094, 0xCC), (4095, 0xDD)]) (regPc 12) = some (0xAABBCCDD, 4) ∧
    after 0x8C0C0FFD (start 0 [(12, 0x77)] [(4092, 0xAA), (4093, 0xBB), (4094, 0xCC), (4095, 0xDD)]) (regPc 12) = some (0, 4) := by decide
/-- V-T2 -/
theorem test_sw_misaligned :
    after 0xAC080009 (start 0 [(8, 0xA1B2C3D4)] []) (fun t => (t.mem, t.pc)) = some ([(9, 0xA1), (10, 0xB2), (11, 0xC3), (12, 0xD4)], 4) := by decide
/-- V-T3, V-T4: the last word in range is stored, of the next no byte is -/
theorem test_sw_end_of_memory :
    after 0xAC0B0FFC (start 0 [(11, 0xFFFFFFFF)] []) (fun t => t.memRange 4091 6) =
      some [some 0, some 0xFF, some 0xFF, some 0xFF, some 0xFF, none] ∧
    after 0xAC0B0FFD (start 0 [(11, 0xFFFFFFFF)] []) (fun t => (t.mem, t.pc, t.report)) = some ([], 4, none) := by decide
/-- V-J3, V-J5: the upper bits are those of the jump's own pc -/
theorem test_j_region :
    after 0x08000001 (start 0x0FFFFFFC [] []) State.pc = some 4 ∧ after 0x08000002 (start 0x10000008 [] []) State.pc = some 0x10000008 := by decide
/-- V-J6: no link -/
theorem test_j3_no_link : after 0x0C000002 (start 0 [(31, 0x55)] []) (regPc 31) = some (0x55, 8) := by decide
/-- V-A5: `shamt = 31` -/
theorem test_add_ignores_shamt : after 0x010957E0 (start 0 [(8, 5), (9, 10)] []) (regPc 10) = some (15, 4) := by decide
/-- V-A6 and V-I7, for both values of `ZERO_HARDWIRED` -/
theorem test_register_zero :
    after 0x01090020 (start 0 [(8, 5), (9, 10)] []) (regPc 0) = some (15, 4) ∧
    after 0x20000007 (hardwired []) (regPc 0) = some (0, 4) := by decide
/-- V-U2 -/
theorem test_unknown_funct :
    after 0x01095021 (start 4 [(8, 5), (9, 10), (10, 0x99)] []) (fun t => (t.readReg 10, t.pc, t.report)) =
      some (0x99, 8, some (.unknownFunct 4 0x01095021)) := by decide
/-- V-K4 -/
theorem test_unknown_opcode :
    after 0x3C081234 (start 0 [(8, 9)] []) (fun t => (t.readReg 8, t.pc, t.reportLog)) =
      some (9, 4, [.unknownOpcode 0 0x3C081234]) := by decide

/-! ### Cycles -/

/-- V-C1 -/
theorem test_empty_program_halts :
    afterStep State.reset (fun t => (t.status, t.pc, t.executed, t.report)) = some (.halted, 0, 0, none) := by decide
/-- V-C5: no budget -/
theorem test_guard_without_budget :
    afterStep (State.launch { stepBudget := some 0 } [0x20080001] (Vector.replicate 32 0) [])
      (fun t => (t.status, t.report, t.readReg 8, t.executed)) = some (.aborted, some (.stepBudgetExceeded 0 0), 0, 0) := by decide
/-- V-C2: the halt is tested before the guard -/
theorem test_halt_before_guard :
    afterStep { program [0x20080001, 0x20090002] with pc := 8, executed := 2 } (fun t => (t.status, t.report)) =
      some (.halted, none) := by decide
/-- 40_decode_dispatch.md R70: the word placed is executed and counted. -/
theorem test_step_counts :
    afterStep (State.reset.withFetchWord 32 0x20080005) (fun t => (t.readReg 8, t.pc, t.executed)) = some (5, 4, 1) := by decide
/-- 00_scope.md R4: a launch outside the constraints (log entry 5). -/
theorem test_step_refuses_illegal_launch :
    step { State.reset with config := { memSize := 2 ^ 32 + 1 } } = .refused .launchOutOfRange := by rfl

/-! ### Text, loader, assembler -/

/-- S4's text form of `0x1109FFFE` -/
theorem test_word_text : wordToText 0x1109FFFE = "00010001000010011111111111111110".toList := by decide
/-- S4's text form of `0x1109FFFE`, read as a number -/
theorem test_text_value : bitsValue "00010001000010011111111111111110".toList = 0x1109FFFE := by decide
/-- 30_encoding.md R69: a line that is not 32 characters takes no slot. -/
theorem test_loader_skips_short_lines :
    loadText "\nshort line\n".toList = .ok [] := by decide
/-- S4 -/
theorem test_assemble_loop :
    assemble {} "loop: addi $t0, $t0, 1\n beq $t0, $t1, loop\n j loop".toList = .ok [0x21080001, 0x1109FFFE, 0x08000000] := by decide
/-- S5 -/
theorem test_assemble_undefined_label : assemble {} "j end".toList = .error (.undefinedLabel "end".toList) := by decide
/-- S6 -/
theorem test_assemble_branches :
    assemble {} "a: beq $t0, $t1, b # forward\n add $t0, $t0, $t0\nb: beq $t0, $t1, a".toList =
      .ok [0x11090001, 0x01084020, 0x1109FFFD] := by decide
/-- S10 -/
theorem test_assemble_truncates :
    assemble {} "addi $t0,$zero,32768\naddi $t0,$zero,-32769\naddi $t0,$zero,65536".toList =
      .ok [0x20088000, 0x20087FFF, 0x20080000] := by decide
/-- P2 -/
theorem test_assemble_memory :
    assemble {} "sw $t0, 8($zero)\nlw $t6, -4($zero)".toList = .ok [0xAC080008, 0x8C0EFFFC] := by decide
/-- 91_not_in_source.md N14, 93_implementation_defined.md U9: literals of an open form are refused (log entry 23). -/
theorem test_assemble_open_literals :
    literal "addi".toList "-32768".toList = .ok (-32768) ∧ literal "addi".toList "0".toList = .ok 0 ∧
    (["010", "+5", "0x10", "-0b1", "0o7", "ff", "-", ""].all fun t =>
      literal "addi".toList t.toList == .error (.leftOpen .literalForm)) = true ∧
    literal "addi".toList "$t0".toList = .error (.format "addi".toList) := by decide
/-- 91_not_in_source.md N22: labels are told apart by letter case, the model's choice (log entry 23). -/
theorem test_assemble_label_case :
    assemble {} "Loop: j loop\nloop: j Loop".toList = .ok [0x08000001, 0x08000000] ∧
    assemble {} "Loop: j loop".toList = .error (.undefinedLabel "loop".toList) := by decide
/-- 30_encoding.md R66: the three kinds of error, and a duplicate label (U4, log entry 23). -/
theorem test_assemble_errors :
    assemble {} "add $t0, $t1".toList = .error (.format "add".toList) ∧
    assemble {} "add $t0, $t1, $q".toList = .error (.unknownRegister "$q".toList) ∧
    assemble {} "jal x".toList = .error (.unsupportedOperation "jal".toList) ∧
    assemble {} "a: j a\na: j a".toList = .error (.leftOpen .duplicateLabel) := by decide

/-! ### Witnesses: for each obligation with hypotheses, inputs that meet them, at the ends of their ranges -/

theorem executes_program (w : Word) : (program [w]).Executes w :=
  ⟨(by decide : Config.Legal {} 1), rfl, by simp [State.fetchWord, program, State.launch], (by decide : 0 < 1)⟩

theorem witness_ExecutionBeginsWithWordZero : 0 < ([0x20080005] : List Word).length := by decide
theorem witness_LaunchPresetsRegistersAndMemory :
    (({ zeroHardwired := true } : Config).zeroHardwired = true ∧ (0 : Reg) = 0) ∧ 4095 < ({} : Config).memSize := by decide

theorem witness_DecodeInvertsEncode : Numerals.Legal {} ∧ Numerals.Legal { opBeq := 63, opLw := 1, fnAdd := 0, fnNor := 63 } := by decide
theorem witness_EncodeInvertsDecode : decode {} 0x010957E0 = .instr (.add 10 8 9 31) := by decide
theorem witness_ReservedSpacesAreExactlyTheUnknownCases :
    Numerals.Legal {} ∧
    ((fields 0).opcode = 0 ∧ (fields 0).funct ∉ ({} : Numerals).functs) ∧
    ((fields 0x03FFFFFF).opcode = 0 ∧ (fields 0x03FFFFFF).funct ∉ ({} : Numerals).functs) ∧
    (fields 0x04000000).opcode ∉ [0, 2, 3] ++ ({} : Numerals).iOpcodes ∧
    (fields 0xFFFFFFFF).opcode ∉ [0, 2, 3] ++ ({} : Numerals).iOpcodes := by decide

theorem witness_BitwiseInstructionRules :
    Numerals.Legal {} ∧
    ((fields 0x01095024).opcode = 0 ∧ (fields 0x01095024).funct = ({} : Numerals).fnAnd ∧ (0x01095024 : Word) &&& 0xFC00003F = 0x24) ∧
    ((fields 0x01095025).opcode = 0 ∧ (fields 0x01095025).funct = ({} : Numerals).fnOr ∧ (0x01095025 : Word) &&& 0xFC00003F = 0x25) ∧
    ((fields 0x01095027).opcode = 0 ∧ (fields 0x01095027).funct = ({} : Numerals).fnNor ∧ (0x01095027 : Word) &&& 0xFC00003F = 0x27) := by
  decide
theorem witness_ArithmeticInstructionRules :
    Numerals.Legal {} ∧
    ((fields 0x01095020).opcode = 0 ∧ (fields 0x01095020).funct = ({} : Numerals).fnAdd ∧ (0x01095020 : Word) &&& 0xFC00003F = 0x20) ∧
    ((fields 0x01095022).opcode = 0 ∧ (fields 0x01095022).funct = ({} : Numerals).fnSub ∧ (0x01095022 : Word) &&& 0xFC00003F = 0x22) ∧
    ((fields 0x0109502A).opcode = 0 ∧ (fields 0x0109502A).funct = ({} : Numerals).fnSlt ∧ (0x0109502A : Word) &&& 0xFC00003F = 0x2A) := by
  decide
/-- A result written, for a register that is not hard-wired to zero, and one discarded, for one that is. -/
theorem witness_WritesRegister :
    ¬ ((program []).config.zeroHardwired = true ∧ (0 : Reg) = 0) ∧ ((hardwired []).config.zeroHardwired = true ∧ (0 : Reg) = 0) := by
  decide
theorem witness_AddImmediateRule : Numerals.Legal {} ∧ (fields 0x20080005).opcode = ({} : Numerals).opAddi := by decide

/-- The last word in range, at 4092, and the first out of range, at 4093. -/
theorem witness_LoadWordRule :
    Numerals.Legal {} ∧ (fields 0x8C0C0FFC).opcode = ({} : Numerals).opLw ∧
    ((program []).effectiveAddress 0 0x0FFC).toNat = 4092 ∧
    (program []).memByte 4092 = some 0 ∧ (program []).memByte 4093 = some 0 ∧ (program []).memByte 4094 = some 0 ∧
    (program []).memByte 4095 = some 0 ∧
    (program []).config.memSize < ((program []).effectiveAddress 0 0x0FFD).toNat + 4 := by decide
theorem witness_StoreWordRule :
    Numerals.Legal {} ∧ (fields 0xAC0B0FFC).opcode = ({} : Numerals).opSw ∧ (0xAC0B0FFC : Word) &&& 0xFC000000 = 0xAC000000 ∧
    decimal "-4".toList = some (-4) ∧ (program []).mem.wf ∧
    ((program []).effectiveAddress 0 0x0FFC).toNat + 4 ≤ (program []).config.memSize ∧
    ¬ covers ((program []).effectiveAddress 0 0x0FFC) 4091 ∧
    (program []).config.memSize < ((program []).effectiveAddress 0 0x0FFD).toNat + 4 ∧
    ((program []).memWrite 0x0FFC 5).advancePc.effectiveAddress 9 0x0FFC = (program []).effectiveAddress 0 0x0FFC ∧
    ¬ ((program []).config.zeroHardwired = true ∧ (12 : Reg) = 0) := by decide
theorem witness_BranchEqualRule :
    Numerals.Legal {} ∧ (fields 0x1109FFFE).opcode = ({} : Numerals).opBeq ∧
    (start 4 [(8, 3), (9, 3)] []).readReg 8 = (start 4 [(8, 3), (9, 3)] []).readReg 9 ∧
    (start 4 [(8, 3), (9, 4)] []).readReg 8 ≠ (start 4 [(8, 3), (9, 4)] []).readReg 9 := by decide
theorem witness_JumpRule :
    (fields 0x0BFFFFFF).opcode = 2 ∧ (0x0BFFFFFF : Word) &&& 0xFC000000 = 0x08000000 ∧
    SymbolTable.find [("end".toList, 0x0FFFFFFC)] "end".toList = some 0x0FFFFFFC := by decide
theorem witness_OpcodeThreeJumpRule : (fields 0x0FFFFFFF).opcode = 3 := by decide

theorem witness_UnknownFunctionCodeIsReportedAndSkipped :
    (program [0]).Executes 0 ∧ (fields 0).opcode = 0 ∧ (fields 0).funct ∉ (program [0]).config.numerals.functs :=
  ⟨executes_program 0, by decide, by decide⟩
theorem witness_UnknownOpcodeIsReportedAndSkipped :
    (program [0xFFFFFFFF]).Executes 0xFFFFFFFF ∧
    (fields 0xFFFFFFFF).opcode ∉ [0, 2, 3] ++ (program [0xFFFFFFFF]).config.numerals.iOpcodes ∧
    Numerals.Legal {} ∧ assemble {} "j a\na: sw $t0, 8($zero)".toList = .ok [0x08000001, 0xAC080008] :=
  ⟨executes_program _, by decide, by decide, by decide⟩

/-- A store at the last word in range with a byte outside it, and a hard-wired register 0 as destination. -/
theorem witness_EveryInstructionKeepsItsFrame :
    (∃ t, exec (.sw 11 0 0x0FFC) (program []) = .next t) ∧ (Instr.sw 11 0 0x0FFC).dest? ≠ some 11 ∧
    (Instr.sw 11 0 0x0FFC).store? (program []) = some (0x0FFC, 0) ∧ ¬ covers 0x0FFC 4091 ∧
    (∃ t, exec (.addi 0 0 7) (hardwired []) = .next t) ∧ (hardwired []).config.zeroHardwired = true :=
  ⟨⟨_, rfl⟩, by decide, by decide, by decide, ⟨_, rfl⟩, rfl⟩
/-- Two states that differ in a register which is no source. -/
theorem witness_InstructionsReadOnlyTheirSources :
    (start 0 [(8, 5), (9, 1)] []) ≠ (start 0 [(8, 5), (9, 2)] []) ∧
    (start 0 [(8, 5), (9, 1)] []).config = (start 0 [(8, 5), (9, 2)] []).config ∧
    (start 0 [(8, 5), (9, 1)] []).pc = (start 0 [(8, 5), (9, 2)] []).pc ∧
    (start 0 [(8, 5), (9, 1)] []).mem = (start 0 [(8, 5), (9, 2)] []).mem ∧
    (∀ r ∈ (Instr.addi 10 8 5).sources, (start 0 [(8, 5), (9, 1)] []).readReg r = (start 0 [(8, 5), (9, 2)] []).readReg r) ∧
    (Instr.addi 10 8 5).dest? = some 10 ∧ ¬ ((start 0 [(8, 5), (9, 1)] []).config.zeroHardwired = true ∧ (10 : Reg) = 0) := by
  decide
theorem witness_RegisterFileIsWrittenOnlyAsListed :
    (∃ t, exec (.add 10 8 9 0) (program []) = .next t) ∧ (Instr.add 10 8 9 0).dest? = some 10 ∧
    (∃ t, exec (.beq 8 9 0xFFFE) (program []) = .next t) ∧ (Instr.beq 8 9 0xFFFE).dest? = none ∧
    (∃ t, execWord 0 (program []) = .next t) ∧ (decode (program []).config.numerals 0).instr? = none :=
  ⟨⟨_, rfl⟩, rfl, ⟨_, exec_beq ..⟩, rfl, ⟨_, rfl⟩, by decide⟩
/-- The last word in range and the first out of range. -/
theorem witness_MemReadGivesTheBytes :
    (0x0FFC : Word).toNat + 4 ≤ (program []).config.memSize ∧ 3 < 4 ∧ (program []).config.memSize < (0x0FFD : Word).toNat + 4 := by
  decide
theorem witness_MemWriteStoresTheBytes :
    (program []).mem.wf ∧ (0x0FFC : Word).toNat + 4 ≤ (program []).config.memSize ∧ 3 < 4 ∧ ¬ covers 0x0FFC 4091 ∧
    ¬ covers 8 12 ∧ (program []).config.memSize < (0x0FFD : Word).toNat + 4 := by decide
theorem witness_CanonicalMemoriesThatReadAlikeAreEqual :
    Memory.wf [(3, 7)] ∧ Memory.wf (Memory.write (Memory.write (Memory.write [] 5 1) 3 7) 5 0) ∧
    ∀ a, Memory.read [(3, 7)] a = Memory.read (Memory.write (Memory.write (Memory.write [] 5 1) 3 7) 5 0) a :=
  ⟨by decide, by decide, fun _ => rfl⟩

theorem witness_StepRunsTheDecodedInstruction :
    (program [0x010957E0]).Executes 0x010957E0 ∧
    decode (program [0x010957E0]).config.numerals 0x010957E0 = .instr (.add 10 8 9 31) :=
  ⟨executes_program _, by decide⟩
/-- The pc exactly at the end of a program of one word. -/
theorem witness_RunHaltsWhenThePcLeavesTheProgram :
    let s : State := { program [0] with pc := 4 }
    s.LaunchLegal ∧ s.status = .running ∧ 4 * s.wordCount ≤ s.pc.toNat ∧
    (∃ t, step s = .next t ∧ t.status = .halted) ∧ Config.Legal {} 0 :=
  ⟨by decide, rfl, by decide, ⟨_, rfl, rfl⟩, by decide⟩
/-- The last word of a program, with the budget just used up. -/
theorem witness_StepGuardAbortsTheRun :
    let s : State := { program [0, 0] with pc := 4, executed := 2 }
    s.LaunchLegal ∧ s.status = .running ∧ s.pc.toNat < 4 * s.wordCount ∧ s.stepBudget ≤ s.executed ∧
    s.config.stepBudget = none ∧ (State.launch { stepBudget := some 5 } [] (Vector.replicate 32 0) []).config.stepBudget = some 5 := by
  decide
theorem witness_TerminalStatusIsLeftByNoStep :
    let s : State := { program [0] with status := .halted }
    let t : State := { program [0] with status := .aborted }
    (s.LaunchLegal ∧ s.status ≠ .running) ∧ t.LaunchLegal ∧ t.status ≠ .running := by decide
/-- A taken and an untaken `beq`, and both jumps. -/
theorem witness_NextFetchIsAtTheTarget :
    ((program [0x1000FFFF]).Executes 0x1000FFFF ∧ (∃ t, step (program [0x1000FFFF]) = .next t) ∧
      decode (program [0x1000FFFF]).config.numerals 0x1000FFFF = .instr (.beq 0 0 0xFFFF) ∧
      (program [0x1000FFFF]).readReg 0 = (program [0x1000FFFF]).readReg 0) ∧
    (let s : State := (program [0x1109FFFE]).writeReg 8 1;
      s.Executes 0x1109FFFE ∧ (∃ t, step s = .next t) ∧ decode s.config.numerals 0x1109FFFE = .instr (.beq 8 9 0xFFFE) ∧
      s.readReg 8 ≠ s.readReg 9) ∧
    ((program [0x08000002]).Executes 0x08000002 ∧ (∃ t, step (program [0x08000002]) = .next t) ∧
      decode (program [0x08000002]).config.numerals 0x08000002 = .instr (.j 2)) ∧
    (program [0x0C000002]).Executes 0x0C000002 ∧ (∃ t, step (program [0x0C000002]) = .next t) ∧
      decode (program [0x0C000002]).config.numerals 0x0C000002 = .instr (.j3 2) :=
  ⟨⟨executes_program _, ⟨_, rfl⟩, by decide, rfl⟩,
    ⟨⟨by decide, rfl, rfl, by decide⟩, ⟨_, rfl⟩, by decide, by decide⟩,
    ⟨executes_program _, ⟨_, rfl⟩, by decide⟩, executes_program _, ⟨_, rfl⟩, by decide⟩
theorem witness_EverythingElseAdvancesThePcByFour :
    (program [0x8C0EFFFC]).Executes 0x8C0EFFFC ∧ (∃ t, step (program [0x8C0EFFFC]) = .next t) ∧
    (∀ a, decode (program [0x8C0EFFFC]).config.numerals 0x8C0EFFFC ≠ .instr (.j a) ∧
      decode (program [0x8C0EFFFC]).config.numerals 0x8C0EFFFC ≠ .instr (.j3 a)) ∧
    ∀ rs rt imm, decode (program [0x8C0EFFFC]).config.numerals 0x8C0EFFFC = .instr (.beq rs rt imm) →
      (program [0x8C0EFFFC]).readReg rs ≠ (program [0x8C0EFFFC]).readReg rt := by
  have h : decode (program [0x8C0EFFFC]).config.numerals 0x8C0EFFFC = .instr (.lw 14 0 0xFFFC) := by decide
  exact ⟨executes_program _, ⟨_, rfl⟩, fun a => by rw [h]; simp, fun rs rt imm e => by rw [h] at e; simp at e⟩
theorem witness_FallThroughNeverWraps :
    let s : State := { program [0, 0] with pc := 4 }
    s.LaunchLegal ∧ s.pc.toNat < 4 * s.wordCount ∧ s.pc.toNat % 4 = 0 := by decide
theorem witness_ChangedRegisterIsTheDestination :
    ∃ t, step (program [0x20080005]) = .next t ∧ t.readReg 8 ≠ (program [0x20080005]).readReg 8 := ⟨_, rfl, by decide⟩
theorem witness_ChangedByteIsTheStores :
    let s : State := (program [0xAC0B0FFC]).writeReg 11 0xFFFFFFFF
    ∃ t, step s = .next t ∧ t.memByte 4095 ≠ s.memByte 4095 := ⟨_, rfl, by decide⟩
theorem witness_ExecutedCountsExecutedWords :
    ((∃ t, step (program [0]) = .next t) ∧ ∃ w, (program [0]).Executes w) ∧
    (∃ t, step (program []) = .next t) ∧ ¬ ∃ w, (program []).Executes w :=
  ⟨⟨⟨_, rfl⟩, 0, executes_program 0⟩, ⟨_, rfl⟩, fun ⟨_, h⟩ => by simpa [State.fetchWord, program, State.launch] using h.fetched⟩
theorem witness_LogGrowsByThePortsEvent : ∃ t, step (program [0]) = .next t ∧ t.report ≠ none := ⟨_, rfl, by decide⟩
theorem witness_StepStopsOnlyOnAnIllegalLaunch :
    (program [0]).LaunchLegal ∧ ¬ State.LaunchLegal { program [0] with config := { memSize := 2 ^ 32 + 1 } } := by decide
theorem witness_VerboseHasNoEffect : ∃ t, step (program [0x20080005]) = .next t := ⟨_, rfl⟩
/-- The highest pc in reach, that of the last word of the longest program. -/
theorem witness_PlacedWordIsExecutedNext :
    let s : State := { program [] with pc := 0xFFFFFFF8 }
    s.LaunchLegal ∧ s.pc.toNat < 4 * maxWordCount := by decide

theorem witness_LaunchMeetsTheInvariant : Config.Legal {} ([0, 0] : List Word).length ∧ Config.Legal { memSize := 0 } 0 := by decide
theorem witness_StepKeepsTheInvariant :
    (program [0x20080005]).Inv ∧ ∃ t, step (program [0x20080005]) = .next t :=
  ⟨⟨by decide, by decide, by decide, by decide, by decide, by simp [program, State.launch], by simp [program, State.launch],
    by simp [program, State.launch], by simp [program, State.launch]⟩, _, rfl⟩
theorem witness_RunsNeverChangeTheProgram :
    ∃ t, Host.Core.run Sys2Proof.core 2 (program [0x20080005, 0xAC080008]) = .next t := ⟨_, rfl⟩
theorem witness_EveryRunEndsWithinItsBudget : Config.Legal { stepBudget := some 5 } ([0x1000FFFF] : List Word).length := by decide
/-- A run of two cycles with a store, and an address it covers. -/
theorem witness_MemoryHoldsTheLatestStores :
    (program [0x20080005, 0xAC080008]).mem.wf ∧
    (∃ t, Host.Core.run Sys2Proof.core 2 (program [0x20080005, 0xAC080008]) = .next t) ∧
    11 < (program [0x20080005, 0xAC080008]).config.memSize ∧ storesOfRun 2 (program [0x20080005, 0xAC080008]) = [(8, 5)] :=
  ⟨by decide, ⟨_, rfl⟩, by decide, by decide⟩

theorem witness_WordTextIsInvertible : ∃ t w, textToWord t = some w :=
  ⟨List.replicate 32 '1', _, if_pos ⟨by decide, fun c hc => .inr (List.eq_of_mem_replicate hc)⟩⟩
theorem witness_RegisterNamesNumberTheRegisters : regNumber "$ra".toList = some 31 := by decide
theorem witness_JumpSyntaxRule :
    SymbolTable.find [("end".toList, 0x0FFFFFFC)] "end".toList = some 0x0FFFFFFC ∧ SymbolTable.find [] "end".toList = none := by decide
/-- The farthest labels in reach, forward and back, and an undefined one. -/
theorem witness_AssembledBranchReachesItsLabel :
    (SymbolTable.find [("f".toList, 131072)] "f".toList = some 131072 ∧ 0 % 4 = 0 ∧ 131072 % 4 = 0 ∧ 131072 < 2 ^ 32 ∧
      131072 ≤ 0 + 131072 ∧ 0 ≤ 131072 + 131068) ∧
    (SymbolTable.find [("b".toList, 0)] "b".toList = some 0 ∧ 131068 % 4 = 0 ∧ 0 % 4 = 0 ∧ 0 < 2 ^ 32 ∧
      0 ≤ 131068 + 131072 ∧ 131068 ≤ 0 + 131068) ∧
    SymbolTable.find [] "b".toList = none := by decide
theorem witness_AddImmediateSyntaxRule : decimal "-32769".toList = some (-32769) ∧ decimal "65536".toList = some 65536 := by decide
theorem witness_LoadWordSyntaxRule : decimal "-4".toList = some (-4) := by decide
theorem witness_AssembledWordsDecodeToTheirInstructions :
    Numerals.Legal {} ∧ assemble {} "j a\na: sw $t0, 8($zero)".toList = .ok [0x08000001, 0xAC080008] := by decide

end Sys2Proof.Tests
end

section
/-! Sign extension of the 16-bit immediate (00_scope.md R6). -/
namespace Sys2Proof.Proofs
open Sys2Proof.Machine

/-- R6's table, as numbers: neither the widening nor the addition of `0xFFFF0000` wraps. -/
theorem toNat_sext16 (v : BitVec 16) :
    (sext16 v).toNat = if v.toNat < 32768 then v.toNat else v.toNat + 0xFFFF0000 := by
  have hv : v.toNat < 65536 := v.isLt
  have hwide : (v.setWidth 32).toNat = v.toNat := BitVec.toNat_setWidth_of_le (by decide)
  have hbias : (0xFFFF0000 : Word).toNat = 0xFFFF0000 := rfl
  unfold sext16
  split
  · exact hwide
  · rw [BitVec.toNat_add_of_lt (by omega), hwide, hbias]

/-- From 32768 on the 16-bit reading subtracts `2 ^ 16` and the 32-bit one `2 ^ 32`; `sext16` has added the difference. -/
@[simp] theorem toInt_sext16 (v : BitVec 16) : (sext16 v).toInt = v.toInt := by
  have hv : v.toNat < 65536 := v.isLt
  rw [BitVec.toInt_eq_toNat_cond, BitVec.toInt_eq_toNat_cond, toNat_sext16]
  by_cases hpos : v.toNat < 32768
  · rw [if_pos hpos]
    omega
  · rw [if_neg hpos]
    omega

/-- Settles O10: R6's two cases, and the two's-complement value they keep. -/
theorem signExtensionPreservesTheImmediate : Obligations.SignExtensionPreservesTheImmediate :=
  fun v => ⟨toNat_sext16 v, toInt_sext16 v⟩

end Sys2Proof.Proofs
end

section
/-! Which register an executed word writes (10_state.md R15). -/
namespace Sys2Proof.Proofs
open Sys2Proof.Machine

/-- The eight instructions with a destination do one thing: they write it, and the pc goes on by four. -/
theorem exec_of_dest?_eq_some {i : Instr} {d : Reg} (hd : i.dest? = some d) (s : State) :
    ∃ v, exec i s = .next ((s.writeReg d v).setPc (s.pc + 4)) := by
  cases i with
  | add => cases hd; exact ⟨_, exec_add ..⟩
  | sub => cases hd; exact ⟨_, exec_sub ..⟩
  | and => cases hd; exact ⟨_, exec_and ..⟩
  | or => cases hd; exact ⟨_, exec_or ..⟩
  | nor => cases hd; exact ⟨_, exec_nor ..⟩
  | slt => cases hd; exact ⟨_, exec_slt ..⟩
  | addi => cases hd; exact ⟨_, exec_addi ..⟩
  | lw => cases hd; exact ⟨_, exec_lw ..⟩
  | beq | sw | j | j3 => cases hd

/-- The four instructions without a destination write the pc and, `sw`, memory. -/
theorem exec_of_dest?_eq_none {i : Instr} (hd : i.dest? = none) (s : State) :
    ∃ t, exec i s = .next t ∧ t.regs = s.regs := by
  cases i with
  | beq => exact ⟨_, exec_beq .., State.setPc_regs ..⟩
  | sw => exact ⟨_, exec_sw .., by rw [State.setPc_regs, State.memWrite_regs]⟩
  | j => exact ⟨_, exec_j .., State.setPc_regs ..⟩
  | j3 => exact ⟨_, exec_j3 .., State.setPc_regs ..⟩
  | add | sub | and | or | nor | slt | addi | lw => cases hd

/-- Both reserved spaces of 30_encoding.md R54 touch the report port and the pc only. -/
theorem execWord_regs_of_unknown {s t : State} {w : Word} (h : execWord w s = .next t)
    (hu : (decode s.config.numerals w).instr? = none) : t.regs = s.regs := by
  have hno (i : Instr) : decode s.config.numerals w ≠ .instr i := fun hi => by rw [hi] at hu; cases hu
  obtain ⟨_, _, _, hi, _⟩ | ⟨_, _, _, hi, _⟩ | ⟨_, _, hi, _⟩ | ⟨_, _, _, he⟩ := execWord_cases w s
  · exact absurd hi (hno _)
  · exact absurd hi (hno _)
  · exact absurd hi (hno _)
  · cases he.symm.trans h
    rw [State.setPc_regs, State.emit_regs]

/-- Settles O27: by whether the instruction has a destination, the two reserved spaces, and R15's list, which `dest?` is. -/
theorem registerFileIsWrittenOnlyAsListed : Obligations.RegisterFileIsWrittenOnlyAsListed := by
  refine ⟨fun i s t h => ⟨fun d hd => ?_, fun hd => ?_⟩, fun _ _ _ => execWord_regs_of_unknown, fun _ _ _ _ _ _ => ?_⟩
  · obtain ⟨v, hv⟩ := exec_of_dest?_eq_some hd s
    cases hv.symm.trans h
    exact ⟨v, State.setPc_regs ..⟩
  · obtain ⟨u, hu, hregs⟩ := exec_of_dest?_eq_none hd s
    cases hu.symm.trans h
    exact hregs
  · exact ⟨rfl, rfl, rfl, rfl, rfl, rfl, rfl, rfl, rfl, rfl, rfl, rfl⟩

end Sys2Proof.Proofs
end

section
/-! The text form of a word (30_encoding.md R58). -/
namespace Sys2Proof.Proofs

@[simp] theorem length_wordToText (w : Word) : (wordToText w).length = 32 := by
  rw [wordToText, List.length_map, List.length_range]

/-- R58's rule for one character, at every index of the text. -/
theorem getElem?_wordToText (w : Word) {i : Nat} (hi : i < 32) :
    (wordToText w)[i]? = some (bitChar (w.getLsbD (31 - i))) := by
  rw [wordToText, List.getElem?_map, List.getElem?_range hi, Option.map_some]

theorem bitChar_eq_zero_or_one (b : Bool) : bitChar b = '0' ∨ bitChar b = '1' := by
  cases b with
  | false => exact .inl rfl
  | true => exact .inr rfl

theorem bitChar_injective : Function.Injective bitChar := by decide

/-- `bitChar` writes a binary digit back from the test `bitsValue` reads it by. -/
theorem bitChar_decide_eq_one {c : Char} (hc : c = '0' ∨ c = '1') : bitChar (decide (c = '1')) = c := by
  obtain rfl | rfl := hc <;> rfl

theorem mem_wordToText {w : Word} {c : Char} (hc : c ∈ wordToText w) : c = '0' ∨ c = '1' := by
  obtain ⟨i, -, rfl⟩ := List.mem_map.mp hc
  exact bitChar_eq_zero_or_one _

/-- Two words with one text have each bit in common: bit `i` is what character `31 - i` shows. -/
theorem wordToText_injective : Function.Injective wordToText := by
  intro v w h
  refine BitVec.eq_of_getLsbD_eq fun i hi => bitChar_injective ?_
  have hpos : 31 - (31 - i) = i := by omega
  have hchar : (wordToText v)[31 - i]? = (wordToText w)[31 - i]? := by rw [h]
  rw [getElem?_wordToText v (by omega), getElem?_wordToText w (by omega), hpos] at hchar
  exact Option.some.inj hchar

/-- The last character of a text is the lowest bit of its value. -/
theorem bitsValue_concat (cs : Text) (c : Char) :
    bitsValue (cs ++ [c]) = 2 * bitsValue cs + (decide (c = '1')).toNat := by
  simp [bitsValue, Bool.toNat, Bool.cond_decide]

/-- Bit `i` of a text's value is set where the text, read from its right end, has a `1`. -/
theorem testBit_bitsValue (cs : Text) (i : Nat) :
    (bitsValue cs).testBit i = decide (cs.reverse[i]? = some '1') := by
  induction cs using List.reverseRecOn generalizing i with
  | nil => simp [bitsValue]
  | append_singleton cs c ih =>
    rw [bitsValue_concat, List.reverse_concat]
    cases i with
    | zero => by_cases hc : c = '1' <;> simp [Nat.testBit_zero, hc]
    | succ i =>
      have hhalf : (2 * bitsValue cs + (decide (c = '1')).toNat) / 2 = bitsValue cs := by
        have hbit := Bool.toNat_lt (decide (c = '1'))
        omega
      rw [Nat.testBit_succ, hhalf, ih, List.getElem?_cons_succ]

/-- Character `i` counts from the left and bit `31 - i` from the right, so a text of 32 digits is its value's text. -/
theorem wordToText_bitsValue {cs : Text} (hlen : cs.length = 32) (hbits : ∀ c ∈ cs, c = '0' ∨ c = '1') :
    wordToText (BitVec.ofNat 32 (bitsValue cs)) = cs := by
  refine List.ext_getElem? fun i => ?_
  by_cases hi : i < 32
  · have hpos : cs.length - 1 - (31 - i) = i := by omega
    have hbit : (BitVec.ofNat 32 (bitsValue cs)).getLsbD (31 - i) = decide (cs[i] = '1') := by
      have hlow : 31 - i < 32 := by omega
      rw [BitVec.getLsbD_ofNat, testBit_bitsValue, List.getElem?_reverse (by omega), hpos, List.getElem?_eq_getElem (by omega)]
      simp [hlow]
    rw [getElem?_wordToText _ hi, hbit, bitChar_decide_eq_one (hbits _ (List.getElem_mem _)), List.getElem?_eq_getElem]
  · rw [List.getElem?_eq_none (by rw [length_wordToText]; omega), List.getElem?_eq_none (by omega)]

/-- What the reader of a word accepts: the texts of words, and no others. -/
theorem wordToText_of_textToWord {cs : Text} {w : Word} (h : textToWord cs = some w) : wordToText w = cs := by
  unfold textToWord at h
  split at h
  case isTrue hcs =>
    obtain ⟨hlen, hbits⟩ := hcs
    cases h
    exact wordToText_bitsValue hlen hbits
  case isFalse => cases h

/-- A word's text meets the reader's guard, and the word it reads has the same text. -/
@[simp] theorem textToWord_wordToText (w : Word) : textToWord (wordToText w) = some w := by
  have hread : textToWord (wordToText w) = some (BitVec.ofNat 32 (bitsValue (wordToText w))) :=
    if_pos ⟨length_wordToText w, fun _ => mem_wordToText⟩
  rw [hread, wordToText_injective (wordToText_of_textToWord hread)]

/-- The text before the first separator is a piece of its own. -/
theorem pieces_append_cons {sep : Char → Bool} {c : Char} (hc : sep c = true) (cs : Text) :
    ∀ l : Text, (∀ d ∈ l, sep d = false) → pieces sep (l ++ c :: cs) = l :: pieces sep cs
  | [], _ => if_pos hc
  | d :: l, hl => by
    have ih := pieces_append_cons hc cs l fun e he => hl e (List.mem_cons_of_mem d he)
    simp [pieces, hl d List.mem_cons_self, ih]

/-- R58, R69: one line per word, in order, and the empty text after the last line feed. -/
theorem textLines_emitText (ws : List Word) : textLines (emitText ws) = ws.map wordToText ++ [[]] := by
  induction ws with
  | nil => rfl
  | cons w ws ih =>
    have hline : ∀ c ∈ wordToText w, (c == '\n') = false := by
      intro c hc
      obtain rfl | rfl := mem_wordToText hc <;> rfl
    calc textLines (emitText (w :: ws))
        = pieces (· == '\n') (wordToText w ++ '\n' :: emitText ws) := by
          simp [textLines, emitText]
      _ = wordToText w :: textLines (emitText ws) := pieces_append_cons rfl _ _ hline
      _ = (w :: ws).map wordToText ++ [[]] := by rw [ih, List.map_cons, List.cons_append]

/-- Settles O51: the rule for one character, the inverse both ways, R58's example, and the lines of the output. -/
theorem wordTextIsInvertible : Obligations.WordTextIsInvertible :=
  ⟨fun w => ⟨length_wordToText w, textToWord_wordToText w, fun _ => getElem?_wordToText w⟩,
    fun _ _ => wordToText_of_textToWord, by decide, textLines_emitText⟩

end Sys2Proof.Proofs
end

section
/-! The halt test and who ends a run as `HALTED` (40_decode_dispatch.md R71). -/
namespace Sys2Proof.Proofs
open Sys2Proof.Machine

/-- Each of the four ways a word acts leaves the run controller's status alone. -/
theorem execWord_status {s t : State} {w : Word} (h : execWord w s = .next t) : t.status = s.status := by
  obtain ⟨_, _, _, _, _, he⟩ | ⟨_, _, _, _, he⟩ | ⟨_, _, _, _, _, _, he⟩ | ⟨_, _, _, he⟩ := execWord_cases w s
  all_goals cases he.symm.trans h
  · rw [State.setPc_status, State.writeReg_status]
  · rw [State.setPc_status, State.memWrite_status]
  · exact State.setPc_status ..
  · rw [State.setPc_status, State.emit_status]

/-- The halt test comes first: beyond the program nothing is asked of the budget (decision D16, log entry 12). -/
theorem step_halts {s : State} (hl : s.LaunchLegal) (hr : s.status = .running) (hpc : 4 * s.wordCount ≤ s.pc.toNat) :
    step s = .next s.clearReport.halt := by
  rw [step_legal hl]
  simp only [cycle, hr, runningCycle, (fetchWord_eq_none_iff s).2 hpc]

/-- Of the four steps only the halt can end a running state as `HALTED`: the abort sets another status, and a word keeps it. -/
theorem outside_of_step_halted {s t : State} (hr : s.status = .running) (h : step s = .next t) (ht : t.status = .halted) :
    4 * s.wordCount ≤ s.pc.toNat := by
  obtain ⟨-, ⟨hterm, -⟩ | ⟨-, hpc, -⟩ | ⟨-, -, -, rfl⟩ | ⟨w, u, -, hu, rfl⟩⟩ := step_cases h
  · exact absurd hr hterm
  · exact hpc
  · cases ht
  · have hkept : u.status = s.status := (execWord_status hu).trans s.clearReport_status
    cases hr.symm.trans (hkept.symm.trans ht)

/-- Settles O32: the halt, that nothing else halts, and the empty program, whose first pc 0 is already beyond its end. -/
theorem runHaltsWhenThePcLeavesTheProgram : Obligations.RunHaltsWhenThePcLeavesTheProgram :=
  ⟨fun _ => step_halts, fun _ _ => outside_of_step_halted, fun _ _ _ hc => step_halts hc rfl (Nat.zero_le _)⟩

end Sys2Proof.Proofs
end

section
/-! Where the next fetch is: at launch (70_reset_and_hazards.md R110) and after a transfer of control (R113). -/
namespace Sys2Proof.Proofs
open Sys2Proof.Machine

/-- R110: no reset vector is read; the first fetch is of word 0, and there is none exactly when nothing is loaded. -/
@[simp] theorem fetchWord_launch (c : Config) (imem : List Word) (regs0 : Vector Word 32) (mem0 : List Host.Cell) :
    (State.launch c imem regs0 mem0).fetchWord = imem[0]? := by
  simp [State.fetchWord, State.launch]

/-- Settles O2: the launched pc, and the first fetch where the program has a word 0. -/
theorem executionBeginsWithWordZero : Obligations.ExecutionBeginsWithWordZero :=
  fun c imem regs0 mem0 => ⟨rfl, fun h => by rw [fetchWord_launch, List.getElem?_eq_getElem h]⟩

theorem execWord_of_decode_eq_instr {s : State} {w : Word} {i : Instr} (h : decode s.config.numerals w = .instr i) :
    execWord w s = exec i s := by
  simp only [execWord, h]

/-- R113 for any instruction whose one effect is to set the pc: the cycle adds only the count, so the next word fetched is the
one at that pc in the same program. -/
theorem fetchWord_of_step_of_exec_setPc {s t : State} {w : Word} {i : Instr} {pc : Word} (hs : s.Executes w)
    (ht : step s = .next t) (hw : decode s.config.numerals w = .instr i)
    (hi : exec i s.clearReport = .next (s.clearReport.setPc pc)) : t.fetchWord = s.imem[pc.toNat / 4]? := by
  have hstep : step s = countExecuted (.next (s.clearReport.setPc pc)) := by
    rw [step_executes hs, execWord_of_decode_eq_instr (s := s.clearReport) hw, hi]
  cases hstep.symm.trans ht
  rfl

theorem exec_beq_of_eq {s : State} {rs rt : Reg} (h : s.readReg rs = s.readReg rt) (imm : BitVec 16) :
    exec (.beq rs rt imm) s = .next (s.setPc (branchTarget s.pc imm)) := by
  rw [exec_beq, if_pos h]

theorem exec_beq_of_ne {s : State} {rs rt : Reg} (h : s.readReg rs ≠ s.readReg rt) (imm : BitVec 16) :
    exec (.beq rs rt imm) s = .next (s.setPc (s.pc + 4)) := by
  rw [exec_beq, if_neg h]

/-- Settles O35: `beq` taken, `beq` not taken and both jumps each set the pc and do nothing else. -/
theorem nextFetchIsAtTheTarget : Obligations.NextFetchIsAtTheTarget := by
  intro s t w hs ht
  refine ⟨fun rs rt imm hw heq => ?taken, fun rs rt imm hw hne => ?notTaken, fun a hw => ?jump⟩
  case taken => exact fetchWord_of_step_of_exec_setPc hs ht hw (exec_beq_of_eq (s := s.clearReport) heq imm)
  case notTaken => exact fetchWord_of_step_of_exec_setPc hs ht hw (exec_beq_of_ne (s := s.clearReport) hne imm)
  case jump =>
    obtain hj | hj3 := hw
    · exact fetchWord_of_step_of_exec_setPc hs ht hj (exec_j s.clearReport a)
    · exact fetchWord_of_step_of_exec_setPc hs ht hj3 (exec_j3 s.clearReport a)

end Sys2Proof.Proofs
end

section
/-! The fields of a word and the words of the three formats (30_encoding.md R45 to R48, R57), by the numbers they are. -/
namespace Sys2Proof.Proofs

/-! ### The fields of a word, as numbers -/

theorem toNat_opcode (w : Word) : (fields w).opcode.toNat = w.toNat / 2 ^ 26 := by
  have hw : w.toNat < 2 ^ 32 := w.isLt
  simp only [fields, BitVec.extractLsb'_toNat, Nat.shiftRight_eq_div_pow]
  omega

theorem toNat_rs (w : Word) : (fields w).rs.toNat = w.toNat / 2 ^ 21 % 2 ^ 5 := by
  simp only [fields, BitVec.extractLsb'_toNat, Nat.shiftRight_eq_div_pow]

theorem toNat_rt (w : Word) : (fields w).rt.toNat = w.toNat / 2 ^ 16 % 2 ^ 5 := by
  simp only [fields, BitVec.extractLsb'_toNat, Nat.shiftRight_eq_div_pow]

theorem toNat_rd (w : Word) : (fields w).rd.toNat = w.toNat / 2 ^ 11 % 2 ^ 5 := by
  simp only [fields, BitVec.extractLsb'_toNat, Nat.shiftRight_eq_div_pow]

theorem toNat_shamt (w : Word) : (fields w).shamt.toNat = w.toNat / 2 ^ 6 % 2 ^ 5 := by
  simp only [fields, BitVec.extractLsb'_toNat, Nat.shiftRight_eq_div_pow]

theorem toNat_funct (w : Word) : (fields w).funct.toNat = w.toNat % 2 ^ 6 := by
  simp only [fields, BitVec.extractLsb'_toNat, Nat.shiftRight_zero]

theorem toNat_immediate (w : Word) : (fields w).immediate.toNat = w.toNat % 2 ^ 16 := by
  simp only [fields, BitVec.extractLsb'_toNat, Nat.shiftRight_zero]

theorem toNat_address (w : Word) : (fields w).address.toNat = w.toNat % 2 ^ 26 := by
  simp only [fields, BitVec.extractLsb'_toNat, Nat.shiftRight_zero]

/-- Settles O4: a field is a division by the weight of its lowest bit and a remainder by its width. -/
theorem fieldsAreTheWordsBitRanges : Obligations.FieldsAreTheWordsBitRanges :=
  fun w => ⟨toNat_opcode w, toNat_rs w, toNat_rt w, toNat_rd w, toNat_shamt w, toNat_funct w,
    toNat_immediate w, toNat_address w⟩

/-! ### Packed words, as numbers -/

/-- A field put above the bits of `x` adds its multiple of the weight `2 ^ n`. -/
theorem toNat_shiftLeft_or {k n : Nat} (f : BitVec k) {x : Word} (hk : k + n ≤ 32) (hx : x.toNat < 2 ^ n) :
    ((f.setWidth 32 <<< n) ||| x).toNat = f.toNat * 2 ^ n + x.toNat := by
  have hfit : f.toNat * 2 ^ n < 2 ^ 32 :=
    calc f.toNat * 2 ^ n < 2 ^ k * 2 ^ n := Nat.mul_lt_mul_of_pos_right f.isLt (Nat.two_pow_pos n)
      _ = 2 ^ (k + n) := (Nat.pow_add 2 k n).symm
      _ ≤ 2 ^ 32 := Nat.pow_le_pow_right (by decide) hk
  rw [BitVec.toNat_or, BitVec.toNat_shiftLeft, BitVec.toNat_setWidth_of_le (by omega), Nat.shiftLeft_eq,
    Nat.mod_eq_of_lt hfit, ← Nat.shiftLeft_eq, ← Nat.shiftLeft_add_eq_or_of_lt hx, Nat.shiftLeft_eq]

/-- R45's layout of an R-type word; each field lies below the weight of the next one to its left. -/
theorem toNat_packR (rs rt rd : Reg) (shamt : BitVec 5) (funct : Selector) :
    (packR rs rt rd shamt funct).toNat =
      rs.toNat * 2 ^ 21 + (rt.toNat * 2 ^ 16 + (rd.toNat * 2 ^ 11 + (shamt.toNat * 2 ^ 6 + funct.toNat))) := by
  have hrt : rt.toNat < 2 ^ 5 := rt.isLt
  have hrd : rd.toNat < 2 ^ 5 := rd.isLt
  have hshamt : shamt.toNat < 2 ^ 5 := shamt.isLt
  have hfunct : funct.toNat < 2 ^ 6 := funct.isLt
  have h0 : (funct.setWidth 32).toNat = funct.toNat := BitVec.toNat_setWidth_of_le (by decide)
  have h1 := toNat_shiftLeft_or (n := 6) shamt (x := funct.setWidth 32) (by decide) (by omega)
  have h2 := toNat_shiftLeft_or (n := 11) rd (by decide) (show BitVec.toNat _ < _ by rw [h1]; omega)
  have h3 := toNat_shiftLeft_or (n := 16) rt (by decide) (show BitVec.toNat _ < _ by rw [h2, h1]; omega)
  rw [packR, BitVec.or_assoc, BitVec.or_assoc, BitVec.or_assoc,
    toNat_shiftLeft_or (n := 21) rs (by decide) (by rw [h3, h2, h1]; omega), h3, h2, h1, h0]

/-- R46's layout of an I-type word. -/
theorem toNat_encI (opcode : Selector) (rs rt : Reg) (imm : BitVec 16) :
    (encI opcode rs rt imm).toNat =
      opcode.toNat * 2 ^ 26 + (rs.toNat * 2 ^ 21 + (rt.toNat * 2 ^ 16 + imm.toNat)) := by
  have hrs : rs.toNat < 2 ^ 5 := rs.isLt
  have hrt : rt.toNat < 2 ^ 5 := rt.isLt
  have himm : imm.toNat < 2 ^ 16 := imm.isLt
  have h0 : (imm.setWidth 32).toNat = imm.toNat := BitVec.toNat_setWidth_of_le (by decide)
  have h1 := toNat_shiftLeft_or (n := 16) rt (x := imm.setWidth 32) (by decide) (by omega)
  have h2 := toNat_shiftLeft_or (n := 21) rs (by decide) (show BitVec.toNat _ < _ by rw [h1]; omega)
  rw [encI, BitVec.or_assoc, BitVec.or_assoc,
    toNat_shiftLeft_or (n := 26) opcode (by decide) (by rw [h2, h1]; omega), h2, h1, h0]

/-- R47's layout of a J-type word. -/
theorem toNat_encJ (opcode : Selector) (address : BitVec 26) :
    (encJ opcode address).toNat = opcode.toNat * 2 ^ 26 + address.toNat := by
  have haddr : address.toNat < 2 ^ 26 := address.isLt
  have h0 : (address.setWidth 32).toNat = address.toNat := BitVec.toNat_setWidth_of_le (by decide)
  rw [encJ, toNat_shiftLeft_or (n := 26) opcode (by decide) (by omega), h0]

/-! ### The fields of a packed word (S1) -/

section
variable (rs rt rd : Reg) (shamt : BitVec 5) (funct opcode : Selector) (imm : BitVec 16) (address : BitVec 26)

@[simp] theorem opcode_packR : (fields (packR rs rt rd shamt funct)).opcode = 0 :=
  Laws.packR_opcode rs rt rd shamt funct

@[simp] theorem rs_packR : (fields (packR rs rt rd shamt funct)).rs = rs := by
  apply BitVec.eq_of_toNat_eq
  rw [toNat_rs, toNat_packR]
  omega

@[simp] theorem rt_packR : (fields (packR rs rt rd shamt funct)).rt = rt := by
  apply BitVec.eq_of_toNat_eq
  rw [toNat_rt, toNat_packR]
  omega

@[simp] theorem rd_packR : (fields (packR rs rt rd shamt funct)).rd = rd := by
  apply BitVec.eq_of_toNat_eq
  rw [toNat_rd, toNat_packR]
  omega

@[simp] theorem shamt_packR : (fields (packR rs rt rd shamt funct)).shamt = shamt := by
  apply BitVec.eq_of_toNat_eq
  rw [toNat_shamt, toNat_packR]
  omega

@[simp] theorem funct_packR : (fields (packR rs rt rd shamt funct)).funct = funct := by
  apply BitVec.eq_of_toNat_eq
  rw [toNat_funct, toNat_packR]
  omega

@[simp] theorem opcode_encI : (fields (encI opcode rs rt imm)).opcode = opcode :=
  Laws.encI_opcode opcode rs rt imm

@[simp] theorem rs_encI : (fields (encI opcode rs rt imm)).rs = rs := by
  apply BitVec.eq_of_toNat_eq
  rw [toNat_rs, toNat_encI]
  omega

@[simp] theorem rt_encI : (fields (encI opcode rs rt imm)).rt = rt := by
  apply BitVec.eq_of_toNat_eq
  rw [toNat_rt, toNat_encI]
  omega

@[simp] theorem immediate_encI : (fields (encI opcode rs rt imm)).immediate = imm := by
  apply BitVec.eq_of_toNat_eq
  rw [toNat_immediate, toNat_encI]
  omega

@[simp] theorem opcode_encJ : (fields (encJ opcode address)).opcode = opcode := Laws.encJ_opcode opcode address

@[simp] theorem address_encJ : (fields (encJ opcode address)).address = address := by
  apply BitVec.eq_of_toNat_eq
  rw [toNat_address, toNat_encJ]
  omega

end

/-- Settles O5: format by format, `encR` being `packR` with `shamt = 0`. -/
theorem slicingInvertsPacking : Obligations.SlicingInvertsPacking :=
  ⟨fun funct rs rt rd => ⟨opcode_packR .., rs_packR .., rt_packR .., rd_packR .., shamt_packR ..,
      funct_packR rs rt rd 0 funct⟩,
    fun opcode rs rt imm => ⟨opcode_encI .., rs_encI .., rt_encI .., immediate_encI rs rt opcode imm⟩,
    fun opcode address => ⟨opcode_encJ .., address_encJ opcode address⟩⟩

/-! ### A word is packed from its fields -/

theorem packR_fields {w : Word} (h : (fields w).opcode = 0) :
    packR (fields w).rs (fields w).rt (fields w).rd (fields w).shamt (fields w).funct = w := by
  have hop : w.toNat / 2 ^ 26 = 0 := by rw [← toNat_opcode, h]; rfl
  apply BitVec.eq_of_toNat_eq
  rw [toNat_packR, toNat_rs, toNat_rt, toNat_rd, toNat_shamt, toNat_funct]
  omega

theorem encI_fields (w : Word) : encI (fields w).opcode (fields w).rs (fields w).rt (fields w).immediate = w := by
  apply BitVec.eq_of_toNat_eq
  rw [toNat_encI, toNat_opcode, toNat_rs, toNat_rt, toNat_immediate]
  omega

theorem encJ_fields (w : Word) : encJ (fields w).opcode (fields w).address = w := by
  apply BitVec.eq_of_toNat_eq
  rw [toNat_encJ, toNat_opcode, toNat_address]
  omega

end Sys2Proof.Proofs
end

section
/-! Which words decode to which instruction (30_encoding.md R50 to R54, 40_decode_dispatch.md R75), and the round trips between
words and instructions. -/
namespace Sys2Proof.Proofs

/-! ### The dispatch by opcode -/

theorem decode_of_opcode_zero {w : Word} (h : (fields w).opcode = 0) (n : Numerals) : decode n w = decodeR n (fields w) := by
  simp only [decode, dispatchClass, if_pos h]

theorem decode_of_jump_opcode {w : Word} (h : (fields w).opcode = 2 ∨ (fields w).opcode = 3) (n : Numerals) :
    decode n w = decodeJ (fields w) := by
  have h0 : (fields w).opcode ≠ 0 := by rcases h with h | h <;> simp [h]
  simp only [decode, dispatchClass, if_neg h0, if_pos h]

theorem decode_of_other_opcode {w : Word} (h : (fields w).opcode ∉ ([0, 2, 3] : List Selector)) (n : Numerals) :
    decode n w = decodeI n (fields w) := by
  simp only [List.mem_cons, List.not_mem_nil, or_false, not_or] at h
  obtain ⟨h0, h2, h3⟩ := h
  simp only [decode, dispatchClass, if_neg h0, h2, h3, or_self, if_false]

/-- R75's three classes. -/
theorem opcode_cases (op : Selector) : op = 0 ∨ (op = 2 ∨ op = 3) ∨ op ∉ ([0, 2, 3] : List Selector) := by
  by_cases h : op ∈ ([0, 2, 3] : List Selector)
  · simp only [List.mem_cons, List.not_mem_nil, or_false] at h
    exact h.imp_right .inl
  · exact .inr (.inr h)

theorem decode_of_opcode_two {w : Word} (h : (fields w).opcode = 2) (n : Numerals) :
    decode n w = .instr (.j (fields w).address) := by
  rw [decode_of_jump_opcode (.inl h), decodeJ, if_pos h]

theorem decode_of_opcode_three {w : Word} (h : (fields w).opcode = 3) (n : Numerals) :
    decode n w = .instr (.j3 (fields w).address) := by
  rw [decode_of_jump_opcode (.inr h), decodeJ, if_neg (by simp [h])]

/-! ### The selected instruction: legal numerals are told apart (R4) -/

/-- Each function code differs from those the decoder tests before it. -/
theorem functs_ne_earlier {n : Numerals} (hn : n.Legal) :
    n.fnSub ≠ n.fnAdd ∧ (n.fnAnd ≠ n.fnAdd ∧ n.fnAnd ≠ n.fnSub) ∧
    (n.fnOr ≠ n.fnAdd ∧ n.fnOr ≠ n.fnSub ∧ n.fnOr ≠ n.fnAnd) ∧
    (n.fnNor ≠ n.fnAdd ∧ n.fnNor ≠ n.fnSub ∧ n.fnNor ≠ n.fnAnd ∧ n.fnNor ≠ n.fnOr) ∧
    n.fnSlt ≠ n.fnAdd ∧ n.fnSlt ≠ n.fnSub ∧ n.fnSlt ≠ n.fnAnd ∧ n.fnSlt ≠ n.fnOr ∧ n.fnSlt ≠ n.fnNor := by
  obtain ⟨-, -, hnodup⟩ := hn
  simp only [Numerals.functs, List.nodup_cons, List.mem_cons, not_or] at hnodup
  simp [hnodup, Ne.symm]

/-- Each I-type opcode differs from those the decoder tests before it. -/
theorem iOpcodes_ne_earlier {n : Numerals} (hn : n.Legal) :
    n.opAddi ≠ n.opBeq ∧ (n.opLw ≠ n.opBeq ∧ n.opLw ≠ n.opAddi) ∧
    n.opSw ≠ n.opBeq ∧ n.opSw ≠ n.opAddi ∧ n.opSw ≠ n.opLw := by
  obtain ⟨hnodup, -, -⟩ := hn
  simp only [Numerals.iOpcodes, List.nodup_cons, List.mem_cons, not_or] at hnodup
  simp [hnodup, Ne.symm]

/-- None of the four I-type opcodes is one of the fixed ones. -/
theorem decode_of_iOpcode {n : Numerals} {w : Word} (hn : n.Legal) (hop : (fields w).opcode ∈ n.iOpcodes) :
    decode n w = decodeI n (fields w) := by
  obtain ⟨-, hfixed, -⟩ := hn
  refine decode_of_other_opcode ?_ n
  simpa using hfixed _ hop

theorem decode_of_fnAdd {n : Numerals} {w : Word} (h0 : (fields w).opcode = 0) (h : (fields w).funct = n.fnAdd) :
    decode n w = .instr (.add (fields w).rd (fields w).rs (fields w).rt (fields w).shamt) := by
  simp [decode_of_opcode_zero h0, decodeR, h]

section
variable {n : Numerals} {w : Word} (hn : n.Legal)
include hn

section
variable (h0 : (fields w).opcode = 0)
include h0

theorem decode_of_fnSub (h : (fields w).funct = n.fnSub) :
    decode n w = .instr (.sub (fields w).rd (fields w).rs (fields w).rt (fields w).shamt) := by
  simp [decode_of_opcode_zero h0, decodeR, h, functs_ne_earlier hn]

theorem decode_of_fnAnd (h : (fields w).funct = n.fnAnd) :
    decode n w = .instr (.and (fields w).rd (fields w).rs (fields w).rt (fields w).shamt) := by
  simp [decode_of_opcode_zero h0, decodeR, h, functs_ne_earlier hn]

theorem decode_of_fnOr (h : (fields w).funct = n.fnOr) :
    decode n w = .instr (.or (fields w).rd (fields w).rs (fields w).rt (fields w).shamt) := by
  simp [decode_of_opcode_zero h0, decodeR, h, functs_ne_earlier hn]

theorem decode_of_fnNor (h : (fields w).funct = n.fnNor) :
    decode n w = .instr (.nor (fields w).rd (fields w).rs (fields w).rt (fields w).shamt) := by
  simp [decode_of_opcode_zero h0, decodeR, h, functs_ne_earlier hn]

theorem decode_of_fnSlt (h : (fields w).funct = n.fnSlt) :
    decode n w = .instr (.slt (fields w).rd (fields w).rs (fields w).rt (fields w).shamt) := by
  simp [decode_of_opcode_zero h0, decodeR, h, functs_ne_earlier hn]

end

theorem decode_of_opBeq (h : (fields w).opcode = n.opBeq) :
    decode n w = .instr (.beq (fields w).rs (fields w).rt (fields w).immediate) := by
  rw [decode_of_iOpcode hn (by simp [Numerals.iOpcodes, h])]
  simp [decodeI, h]

theorem decode_of_opAddi (h : (fields w).opcode = n.opAddi) :
    decode n w = .instr (.addi (fields w).rt (fields w).rs (fields w).immediate) := by
  rw [decode_of_iOpcode hn (by simp [Numerals.iOpcodes, h])]
  simp [decodeI, h, iOpcodes_ne_earlier hn]

theorem decode_of_opLw (h : (fields w).opcode = n.opLw) :
    decode n w = .instr (.lw (fields w).rt (fields w).rs (fields w).immediate) := by
  rw [decode_of_iOpcode hn (by simp [Numerals.iOpcodes, h])]
  simp [decodeI, h, iOpcodes_ne_earlier hn]

theorem decode_of_opSw (h : (fields w).opcode = n.opSw) :
    decode n w = .instr (.sw (fields w).rt (fields w).rs (fields w).immediate) := by
  rw [decode_of_iOpcode hn (by simp [Numerals.iOpcodes, h])]
  simp [decodeI, h, iOpcodes_ne_earlier hn]

end

/-! ### Round trips -/

/-- Settles O6: an instruction's word has its numerals in `opcode` and `funct` and its operands in the other fields. -/
theorem decodeInvertsEncode : Obligations.DecodeInvertsEncode := by
  intro n i hn
  cases i with
  | add => simp [encode, decode_of_fnAdd]
  | sub => simp [encode, decode_of_fnSub hn]
  | and => simp [encode, decode_of_fnAnd hn]
  | or => simp [encode, decode_of_fnOr hn]
  | nor => simp [encode, decode_of_fnNor hn]
  | slt => simp [encode, decode_of_fnSlt hn]
  | beq => simp [encode, decode_of_opBeq hn]
  | addi => simp [encode, decode_of_opAddi hn]
  | lw => simp [encode, decode_of_opLw hn]
  | sw => simp [encode, decode_of_opSw hn]
  | j => simp [encode, decode_of_opcode_two]
  | j3 => simp [encode, decode_of_opcode_three]

/-- The R-type decoder answers an instruction only of the function code it has tested. -/
theorem encode_of_decodeR {n : Numerals} {f : Fields} {i : Instr} (h : decodeR n f = .instr i) :
    encode n i = packR f.rs f.rt f.rd f.shamt f.funct := by
  unfold decodeR at h
  split_ifs at h with hf hf hf hf hf hf
  all_goals cases h; rw [encode, hf]

/-- The I-type decoder answers an instruction only of the opcode it has tested. -/
theorem encode_of_decodeI {n : Numerals} {f : Fields} {i : Instr} (h : decodeI n f = .instr i) :
    encode n i = encI f.opcode f.rs f.rt f.immediate := by
  unfold decodeI at h
  split_ifs at h with hop hop hop hop
  all_goals cases h; rw [encode, hop]

theorem encode_of_decodeJ {f : Fields} {i : Instr} (hop : f.opcode = 2 ∨ f.opcode = 3) (h : decodeJ f = .instr i)
    (n : Numerals) : encode n i = encJ f.opcode f.address := by
  unfold decodeJ at h
  split_ifs at h with h2
  · cases h; rw [encode, h2]
  · cases h; rw [encode, hop.resolve_left h2]

/-- Settles O7: in each class the instruction's word is the one packed from the fields of the word decoded. -/
theorem encodeInvertsDecode : Obligations.EncodeInvertsDecode := by
  intro n w i h
  obtain h0 | hjump | hother := opcode_cases (fields w).opcode
  · rw [decode_of_opcode_zero h0] at h
    rw [encode_of_decodeR h, packR_fields h0]
  · rw [decode_of_jump_opcode hjump] at h
    rw [encode_of_decodeJ hjump h, encJ_fields]
  · rw [decode_of_other_opcode hother] at h
    rw [encode_of_decodeI h, encI_fields]

/-! ### The reserved spaces (R54) -/

theorem decodeR_eq_unknownFunct_iff (n : Numerals) (f : Fields) : decodeR n f = .unknownFunct ↔ f.funct ∉ n.functs := by
  unfold decodeR
  split_ifs <;> simp_all [Numerals.functs]

theorem decodeR_ne_unknownOpcode (n : Numerals) (f : Fields) : decodeR n f ≠ .unknownOpcode := by
  unfold decodeR
  split_ifs <;> simp

theorem decodeI_eq_unknownOpcode_iff (n : Numerals) (f : Fields) :
    decodeI n f = .unknownOpcode ↔ f.opcode ∉ n.iOpcodes := by
  unfold decodeI
  split_ifs <;> simp_all [Numerals.iOpcodes]

theorem decodeI_ne_unknownFunct (n : Numerals) (f : Fields) : decodeI n f ≠ .unknownFunct := by
  unfold decodeI
  split_ifs <;> simp

/-- Both jump opcodes are instructions, whatever the address. -/
theorem decodeJ_eq_instr (f : Fields) : ∃ i, decodeJ f = .instr i := by
  unfold decodeJ
  split_ifs
  · exact ⟨_, rfl⟩
  · exact ⟨_, rfl⟩

theorem decode_eq_unknownFunct_iff (n : Numerals) (w : Word) :
    decode n w = .unknownFunct ↔ (fields w).opcode = 0 ∧ (fields w).funct ∉ n.functs := by
  obtain h0 | hjump | hother := opcode_cases (fields w).opcode
  · simp [decode_of_opcode_zero h0, decodeR_eq_unknownFunct_iff, h0]
  · obtain ⟨i, hi⟩ := decodeJ_eq_instr (fields w)
    have h0 : (fields w).opcode ≠ 0 := by rcases hjump with h | h <;> simp [h]
    simp only [decode_of_jump_opcode hjump, hi, h0, false_and, reduceCtorEq]
  · have h0 : (fields w).opcode ≠ 0 := fun h => hother (by simp [h])
    simp only [decode_of_other_opcode hother, decodeI_ne_unknownFunct, h0, false_and]

theorem decode_eq_unknownOpcode_iff (n : Numerals) (w : Word) :
    decode n w = .unknownOpcode ↔ (fields w).opcode ∉ [0, 2, 3] ++ n.iOpcodes := by
  obtain h0 | hjump | hother := opcode_cases (fields w).opcode
  · simp [decode_of_opcode_zero h0, decodeR_ne_unknownOpcode, h0]
  · obtain ⟨i, hi⟩ := decodeJ_eq_instr (fields w)
    have hmem : (fields w).opcode ∈ ([0, 2, 3] : List Selector) ++ n.iOpcodes := by rcases hjump with h | h <;> simp [h]
    simp only [decode_of_jump_opcode hjump, hi, hmem, not_true, reduceCtorEq]
  · simp only [decode_of_other_opcode hother, decodeI_eq_unknownOpcode_iff, List.mem_append, hother, false_or]

/-- Settles O8: class by class, a decoder names its reserved space only after all its numerals have been tested. -/
theorem reservedSpacesAreExactlyTheUnknownCases : Obligations.ReservedSpacesAreExactlyTheUnknownCases :=
  fun n w _ => ⟨decode_eq_unknownFunct_iff n w, decode_eq_unknownOpcode_iff n w⟩

/-- Settles O9: evaluation of the decoder on the eight words. -/
theorem specWordsDecodeToTheirInstructions : Obligations.SpecWordsDecodeToTheirInstructions := by
  unfold Obligations.SpecWordsDecodeToTheirInstructions
  decide

/-! ### The masks of the default numerals -/

/-- A mask that covers the opcode field fixes the opcode. -/
theorem opcode_of_masked {w mask pattern : Word} (hmask : (fields mask).opcode = BitVec.allOnes 6)
    (h : w &&& mask = pattern) : (fields w).opcode = (fields pattern).opcode := by
  rw [← h]
  simp only [fields] at hmask ⊢
  rw [BitVec.extractLsb'_and, hmask, BitVec.and_allOnes]

/-- A mask that covers the `funct` field fixes the function code. -/
theorem funct_of_masked {w mask pattern : Word} (hmask : (fields mask).funct = BitVec.allOnes 6)
    (h : w &&& mask = pattern) : (fields w).funct = (fields pattern).funct := by
  rw [← h]
  simp only [fields] at hmask ⊢
  rw [BitVec.extractLsb'_and, hmask, BitVec.and_allOnes]

end Sys2Proof.Proofs
end

section
/-! What the register file and the data memory hold after each operation on them (10_state.md R14, R27,
20_memory.md R33, R34). -/
namespace Sys2Proof.Proofs
open Sys2Proof.Machine

/-! ### Registers -/

/-- Settles O26: a write to a hard-wired register 0 is no write, any other is seen at its own register alone. -/
theorem registerWritesReadBack : Obligations.RegisterWritesReadBack := by
  intro s i r v
  by_cases hzero : s.config.zeroHardwired = true ∧ i = 0
  · rw [State.writeReg_hardwired hzero, if_neg fun h => h.2 hzero]
  · by_cases hr : r = i
    · subst hr
      rw [State.readReg_writeReg_self hzero, if_pos ⟨rfl, hzero⟩]
    · rw [State.readReg_writeReg_of_ne hr, if_neg fun h => hr h.1]

/-- A hard-wired register 0 is written by nobody. -/
theorem readReg_zero_writeReg {s : State} (hz : s.config.zeroHardwired = true) (i : Reg) (v : Word) :
    (s.writeReg i v).readReg 0 = s.readReg 0 := by
  rw [registerWritesReadBack, if_neg]
  rintro ⟨rfl, hnot⟩
  exact hnot ⟨hz, rfl⟩

/-! ### Bytes outside a write, canonical memory or not -/

theorem read_put_of_ne {a x : Nat} (h : x ≠ a) (b : Byte) (m : Memory) : (Memory.put a b m).read x = m.read x := by
  unfold Memory.put
  split
  · rfl
  · simp only [Memory.read, if_neg h.symm]

theorem read_write_of_ne {a x : Nat} (h : x ≠ a) (b : Byte) (m : Memory) : (m.write a b).read x = m.read x := by
  induction m with
  | nil => exact read_put_of_ne h b []
  | cons c m ih =>
    simp only [Memory.write]
    split_ifs with hlt heq
    · exact read_put_of_ne h b _
    · have hc : c.1 ≠ x := fun hx => h (hx.symm.trans heq.symm)
      rw [read_put_of_ne h, Memory.read, if_neg hc]
    · simp only [Memory.read, ih]

theorem read_writeBytes_of_outside {a x : Nat} (bs : List Byte) (h : ¬ (a ≤ x ∧ x < a + bs.length)) (m : Memory) :
    (m.writeBytes a bs).read x = m.read x := by
  induction bs generalizing m a with
  | nil => rfl
  | cons b bs ih =>
    rw [List.length_cons] at h
    rw [Memory.writeBytes, ih (by omega), read_write_of_ne (by omega)]

theorem read_writeWord_of_not_covers {ea : Word} {x : Nat} (h : ¬ covers ea x) (v : Word) (m : Memory) :
    (m.writeWord ea.toNat v).read x = m.read x :=
  read_writeBytes_of_outside (wordBytes v) h m

/-! ### Words -/

theorem memByte_of_lt {s : State} {a : Nat} (h : a < s.config.memSize) : s.memByte a = some (s.mem.read a) := if_pos h

theorem memByte_eq_some_iff {s : State} {a : Nat} {b : Byte} :
    s.memByte a = some b ↔ a < s.config.memSize ∧ s.mem.read a = b := by
  simp [State.memByte]

/-- States of one size whose memories agree on an address show the same byte there. -/
theorem memByte_congr {s t : State} {a : Nat} (hc : t.config = s.config) (hm : t.mem.read a = s.mem.read a) :
    t.memByte a = s.memByte a := by
  rw [State.memByte, State.memByte, hc, hm]

/-- A loaded word has the four bytes it was loaded from, most significant first. -/
theorem byteOfWord_readWord (m : Memory) (a : Nat) {k : Nat} (hk : k < 4) :
    byteOfWord (m.readWord a) k = m.read (a + k) := by
  have h0 := (m.read a).isLt
  have h1 := (m.read (a + 1)).isLt
  have h2 := (m.read (a + 2)).isLt
  have h3 := (m.read (a + 3)).isLt
  apply BitVec.eq_of_toNat_eq
  rw [byteOfWord_toNat, Memory.readWord_toNat]
  interval_cases k
  · simp only [Nat.add_zero]
    omega
  all_goals omega

/-- A word is determined by its four bytes. -/
theorem eq_of_byteOfWord_eq {v w : Word} (h : ∀ k, k < 4 → byteOfWord v k = byteOfWord w k) : v = w := by
  have hbyte (k : Nat) (hk : k < 4) : v.toNat / 2 ^ (8 * (3 - k)) % 256 = w.toNat / 2 ^ (8 * (3 - k)) % 256 := by
    rw [← byteOfWord_toNat, ← byteOfWord_toNat, h k hk]
  have h0 := hbyte 0 (by decide)
  have h1 := hbyte 1 (by decide)
  have h2 := hbyte 2 (by decide)
  have h3 := hbyte 3 (by decide)
  have hv := v.isLt
  have hw := w.isLt
  apply BitVec.eq_of_toNat_eq
  omega

/-- Settles O28: in range by the bytes of the word read, out of range by the bounds test. -/
theorem memReadGivesTheBytes : Obligations.MemReadGivesTheBytes := by
  refine fun s a => ⟨fun hin k hk => ?_, fun hout => State.memRead_outOfRange (by omega)⟩
  rw [memByte_of_lt (by omega), State.memRead_inRange hin, byteOfWord_readWord _ _ hk]

theorem memByte_memWrite_of_not_covers {ea : Word} {a : Nat} (h : ¬ covers ea a) (s : State) (v : Word) :
    (s.memWrite ea v).memByte a = s.memByte a := by
  by_cases hin : s.inRange ea
  · refine memByte_congr (State.memWrite_config ..) ?_
    rw [State.memWrite_mem hin, read_writeWord_of_not_covers h]
  · rw [State.memWrite_outOfRange hin]

theorem memByte_memWrite_add {s : State} {ea : Word} (hwf : s.mem.wf) (hin : s.inRange ea) (v : Word) {k : Nat} (hk : k < 4) :
    (s.memWrite ea v).memByte (ea.toNat + k) = some (byteOfWord v k) := by
  have hlt : ea.toNat + k < (s.memWrite ea v).config.memSize := by
    have hfits : ea.toNat + 4 ≤ s.config.memSize := hin
    rw [State.memWrite_config]
    omega
  rw [memByte_of_lt hlt, State.memWrite_mem hin, Memory.read_writeWord hwf, if_pos (by omega), Nat.add_sub_cancel_left]

/-- What is stored is loaded again from the same address. -/
theorem memRead_memWrite {s : State} {ea : Word} (hwf : s.mem.wf) (hin : s.inRange ea) (v : Word) :
    (s.memWrite ea v).memRead ea = v := by
  have hin' : (s.memWrite ea v).inRange ea := by rwa [State.inRange, State.memWrite_config]
  refine eq_of_byteOfWord_eq fun k hk => Option.some.inj ?_
  have hread := (memReadGivesTheBytes (s.memWrite ea v) ea).1 hin' k hk
  rw [← hread, memByte_memWrite_add hwf hin v hk]

theorem sameOutside_memWrite (s : State) (ea v : Word) : SameOutside s (s.memWrite ea v) :=
  ⟨State.memWrite_config .., State.memWrite_imem .., State.memWrite_executed .., State.memWrite_status ..,
    State.memWrite_report .., State.memWrite_reportLog ..⟩

/-- Settles O29: the four bytes, every other one, nothing out of range, and the fields a store does not touch. -/
theorem memWriteStoresTheBytes : Obligations.MemWriteStoresTheBytes :=
  fun s a v => ⟨fun hwf hin _ hk => memByte_memWrite_add hwf hin v hk, fun _ hb => memByte_memWrite_of_not_covers hb s v,
    fun hout => State.memWrite_outOfRange (by omega) v, State.memWrite_pc .., fun _ => State.memWrite_readReg ..,
    sameOutside_memWrite s a v⟩

/-! ### The canonical form -/

theorem lt_of_mem_tail {c d : Host.Cell} {m : Memory} (h : Memory.wf (c :: m)) (hd : d ∈ m) : c.1 < d.1 :=
  (List.pairwise_cons.1 h.1).1 d hd

theorem read_head_ne_unlisted {c : Host.Cell} {m : Memory} (h : Memory.wf (c :: m)) :
    Memory.read (c :: m) c.1 ≠ Memory.unlisted := by
  rw [Memory.read, if_pos rfl]
  exact h.2 c List.mem_cons_self

/-- No byte below the first listed address differs from an unlisted one. -/
theorem head_le_of_read_ne_unlisted {c : Host.Cell} {m : Memory} {a : Nat} (h : Memory.wf (c :: m))
    (ha : Memory.read (c :: m) a ≠ Memory.unlisted) : c.1 ≤ a := by
  by_contra hlt
  refine ha (Memory.read_of_lt fun d hd => ?_)
  rcases List.mem_cons.1 hd with rfl | hd
  · omega
  · have := lt_of_mem_tail h hd
    omega

/-- Both first addresses are the least at which the memories show a listed byte, so the heads agree, and then the tails do. -/
theorem eq_of_read_eq {m₁ m₂ : Memory} (h₁ : m₁.wf) (h₂ : m₂.wf) (hread : ∀ a, m₁.read a = m₂.read a) : m₁ = m₂ := by
  induction m₁ generalizing m₂ with
  | nil =>
    cases m₂ with
    | nil => rfl
    | cons d m₂ => exact absurd (hread d.1).symm (read_head_ne_unlisted h₂)
  | cons c m₁ ih =>
    cases m₂ with
    | nil => exact absurd (hread c.1) (read_head_ne_unlisted h₁)
    | cons d m₂ =>
      have hle : d.1 ≤ c.1 := head_le_of_read_ne_unlisted h₂ (hread c.1 ▸ read_head_ne_unlisted h₁)
      have hge : c.1 ≤ d.1 := head_le_of_read_ne_unlisted h₁ (hread d.1 ▸ read_head_ne_unlisted h₂)
      have haddr : c.1 = d.1 := le_antisymm hge hle
      have hbyte : c.2 = d.2 := by simpa [Memory.read, haddr] using hread c.1
      have htail : ∀ a, Memory.read m₁ a = Memory.read m₂ a := by
        intro a
        by_cases ha : c.1 = a
        · subst ha
          rw [Memory.read_of_lt fun _ => lt_of_mem_tail h₁, Memory.read_of_lt fun _ he => haddr ▸ lt_of_mem_tail h₂ he]
        · simpa [Memory.read, ← haddr, ha] using hread a
      rw [Prod.ext haddr hbyte, ih (Memory.wf_tail h₁) (Memory.wf_tail h₂) htail]

/-- Settles O30: by induction on both lists. -/
theorem canonicalMemoriesThatReadAlikeAreEqual : Obligations.CanonicalMemoriesThatReadAlikeAreEqual :=
  fun _ _ => eq_of_read_eq

/-! ### Launch -/

/-- One preset more is one write more, if its address exists. -/
theorem preset_concat (size : Nat) (cells : List Host.Cell) (c : Host.Cell) :
    Memory.preset size (cells ++ [c]) =
      if c.1 < size then (Memory.preset size cells).write c.1 c.2 else Memory.preset size cells := by
  rw [Memory.preset, List.foldl_concat, ← Memory.preset]

/-- The last preset of an address counts. -/
theorem read_preset {size a : Nat} (ha : a < size) (cells : List Host.Cell) :
    (Memory.preset size cells).read a = ((cells.reverse.find? fun cell => cell.1 == a).map (·.2)).getD 0 := by
  induction cells using List.reverseRecOn with
  | nil => rfl
  | append_singleton cells c ih =>
    rw [preset_concat, List.reverse_concat, List.find?_cons]
    by_cases hc : c.1 = a
    · simp [hc, ha, Memory.read_write (Memory.wf_preset size cells)]
    · have hwrite := read_write_of_ne (Ne.symm hc) c.2 (Memory.preset size cells)
      simp only [beq_eq_false_iff_ne.2 hc, ← ih]
      split
      · exact hwrite
      · rfl

theorem mem_preset_lt {size : Nat} {cells : List Host.Cell} {c : Host.Cell} (h : c ∈ Memory.preset size cells) :
    c.1 < size := by
  induction cells using List.reverseRecOn with
  | nil => simp [Memory.preset] at h
  | append_singleton cells d ih =>
    rw [preset_concat] at h
    split at h
    case isTrue hd =>
      rcases Memory.mem_write h with h | h
      · rwa [h]
      · exact ih h
    case isFalse => exact ih h

/-- R27: slot 0 is forced to zero where it is hard-wired, and no other preset is touched. -/
theorem getElem_presetRegs (c : Config) (regs0 : Vector Word 32) (r : Reg) :
    (presetRegs c regs0)[r.toNat]'r.isLt = if c.zeroHardwired = true ∧ r = 0 then 0 else regs0[r.toNat]'r.isLt := by
  unfold presetRegs
  by_cases hz : c.zeroHardwired = true
  · by_cases hr : r = 0
    · subst hr
      simp [hz]
    · have hne : (0 : Nat) ≠ r.toNat := fun h => hr (BitVec.eq_of_toNat_eq h.symm)
      simp only [if_pos hz, if_neg fun h : _ ∧ r = 0 => hr h.2, Vector.getElem_set_ne _ _ hne]
  · simp only [if_neg hz, if_neg fun h : c.zeroHardwired = true ∧ _ => hz h.1]

theorem readReg_launch (c : Config) (imem : List Word) (regs0 : Vector Word 32) (mem0 : List Host.Cell) (r : Reg) :
    (State.launch c imem regs0 mem0).readReg r =
      if c.zeroHardwired = true ∧ r = 0 then 0 else regs0[r.toNat]'r.isLt :=
  getElem_presetRegs c regs0 r

/-- Settles O3: registers by the hard-wired slot, memory by induction on the presets from the last one. -/
theorem launchPresetsRegistersAndMemory : Obligations.LaunchPresetsRegistersAndMemory := by
  refine fun c imem regs0 mem0 => ⟨readReg_launch c imem regs0 mem0, fun a ha => ?_⟩
  rw [memByte_of_lt (s := State.launch c imem regs0 mem0) ha, ← read_preset ha]
  rfl

/-- Settles O1: the table of R27, a replicated register file and an empty memory reading 0 everywhere. -/
theorem resetHoldsTheLaunchTable : Obligations.ResetHoldsTheLaunchTable := by
  refine ⟨rfl, fun r => ?_, fun a ha => memByte_of_lt (s := State.reset) ha, rfl, rfl, rfl, rfl, rfl, rfl⟩
  simp [State.readReg, State.reset]

end Sys2Proof.Proofs
end

section
/-! The targets of the transfers of control as numbers (30_encoding.md R49, decision D6). -/
namespace Sys2Proof.Proofs
open Sys2Proof.Machine

/-- R49(b) over the integers: the shift by two multiplies by four, and every wrap is one reduction modulo `2 ^ 32`. -/
theorem branchTarget_eq_ofInt (pc : Word) (imm : BitVec 16) :
    branchTarget pc imm = BitVec.ofInt 32 ((pc.toNat : Int) + 4 + 4 * imm.toInt) := by
  have himm : imm.toNat < 65536 := imm.isLt
  have h4 : ((4 : Nat) : Word).toNat = 4 := rfl
  apply BitVec.eq_of_toNat_eq
  rw [branchTarget, BitVec.toNat_add, BitVec.toNat_add, h4, BitVec.toNat_shiftLeft, Nat.shiftLeft_eq, toNat_sext16,
    BitVec.toNat_ofInt, BitVec.toInt_eq_toNat_cond]
  split_ifs <;> omega

/-- The upper four bits of a word are its whole multiples of `2 ^ 28`. -/
theorem and_F0000000_eq_shiftLeft (pc : Word) : pc &&& (0xF0000000 : Word) = (pc.extractLsb' 28 4).setWidth 32 <<< 28 := by
  have hmask : (0xF0000000 : Word) = BitVec.allOnes 32 <<< 28 := rfl
  have hhigh : pc >>> 28 = (pc.extractLsb' 28 4).setWidth 32 := by
    have hpc : pc.toNat < 2 ^ 32 := pc.isLt
    apply BitVec.eq_of_toNat_eq
    rw [BitVec.toNat_ushiftRight, BitVec.toNat_setWidth_of_le (by decide), BitVec.extractLsb'_toNat, Nat.shiftRight_eq_div_pow]
    omega
  rw [hmask, ← BitVec.shiftLeft_ushiftRight, hhigh]

/-- R49(c): the region of the jump's own pc, then the address in words. -/
theorem jumpTarget_eq_ofNat (pc : Word) (address : BitVec 26) :
    jumpTarget pc address = BitVec.ofNat 32 (pc.toNat / 2 ^ 28 * 2 ^ 28 + address.toNat * 4) := by
  have hpc : pc.toNat < 2 ^ 32 := pc.isLt
  have haddr : address.toNat < 2 ^ 26 := address.isLt
  have hlow : (address.setWidth 32 <<< 2).toNat = address.toNat * 4 := by
    rw [BitVec.toNat_shiftLeft, BitVec.toNat_setWidth_of_le (by decide), Nat.shiftLeft_eq]
    omega
  apply BitVec.eq_of_toNat_eq
  rw [jumpTarget, and_F0000000_eq_shiftLeft, toNat_shiftLeft_or (n := 28) _ (by decide) (by omega), hlow,
    BitVec.extractLsb'_toNat, Nat.shiftRight_eq_div_pow, BitVec.toNat_ofNat]
  omega

theorem toNat_branchTarget_mod_four {pc : Word} (h : pc.toNat % 4 = 0) (imm : BitVec 16) :
    (branchTarget pc imm).toNat % 4 = 0 := by
  rw [branchTarget_eq_ofInt, BitVec.toNat_ofInt]
  omega

theorem toNat_jumpTarget_mod_four (pc : Word) (address : BitVec 26) : (jumpTarget pc address).toNat % 4 = 0 := by
  rw [jumpTarget_eq_ofNat, BitVec.toNat_ofNat]
  omega

theorem toNat_add_four_mod_four {pc : Word} (h : pc.toNat % 4 = 0) : (pc + 4).toNat % 4 = 0 := by
  have h4 : (4 : Word).toNat = 4 := rfl
  rw [BitVec.toNat_add, h4]
  omega

end Sys2Proof.Proofs
end

section
/-! Result and frame of the instructions (41_rtype_alu.md, 42_itype.md, 43_jtype.md). -/
namespace Sys2Proof.Proofs
open Sys2Proof.Machine

/-! ### The two shapes of an effect -/

/-- One register written and the pc four on: the shape of the eight instructions with a destination. -/
theorem writesRegister_writeReg_setPc (s : State) (d : Reg) (v : Word) :
    WritesRegister s ((s.writeReg d v).setPc (s.pc + 4)) d v where
  written h := State.readReg_writeReg_self h v
  discarded h := by rw [State.setPc_readReg, State.writeReg_hardwired h]
  others _ hr := State.readReg_writeReg_of_ne hr v
  pc := rfl
  memory _ := State.writeReg_memByte ..
  outside := ⟨State.writeReg_config .., State.writeReg_imem .., State.writeReg_executed .., State.writeReg_status ..,
    State.writeReg_report .., State.writeReg_reportLog ..⟩

theorem movesPcOnly_setPc (s : State) (target : Word) : MovesPcOnly s (s.setPc target) target where
  pc := rfl
  regs _ := rfl
  memory _ := rfl
  outside := ⟨rfl, rfl, rfl, rfl, rfl, rfl⟩

theorem sameOutside_setPc {s t : State} (h : SameOutside s t) (target : Word) : SameOutside s (t.setPc target) :=
  ⟨h.config, h.imem, h.executed, h.status, h.report, h.reportLog⟩

/-- Settles O21: with a destination or without one. -/
theorem everyInstructionCompletes : Obligations.EveryInstructionCompletes := by
  intro i s
  cases hd : i.dest? with
  | some d => exact (exec_of_dest?_eq_some hd s).imp' _ fun _ h => h
  | none => exact (exec_of_dest?_eq_none hd s).imp fun _ h => h.1

/-- Settles O22: a destination is the one register written, and only `sw` writes memory, in range. -/
theorem everyInstructionKeepsItsFrame : Obligations.EveryInstructionKeepsItsFrame := by
  intro i s t h
  cases hd : i.dest? with
  | some d =>
    obtain ⟨v, hv⟩ := exec_of_dest?_eq_some hd s
    cases hv.symm.trans h
    have hw := writesRegister_writeReg_setPc s d v
    exact ⟨fun r hr => hw.others r fun e => hr (e ▸ rfl), fun hz => readReg_zero_writeReg hz d v, fun a _ => hw.memory a,
      hw.outside⟩
  | none =>
    obtain ⟨u, hu, hregs⟩ := exec_of_dest?_eq_none hd s
    cases hu.symm.trans h
    have hsame : SameRegs s t := fun r => by simp only [State.readReg, hregs]
    suffices hrest : (∀ a, (∀ p, i.store? s = some p → ¬ covers p.1 a) → t.memByte a = s.memByte a) ∧
        SameOutside s t from
      ⟨fun r _ => hsame r, fun _ => hsame 0, hrest⟩
    cases i with
    | sw rt rs imm =>
      cases (exec_sw s rt rs imm).symm.trans h
      refine ⟨fun a ha => ?_, sameOutside_setPc (sameOutside_memWrite ..) _⟩
      by_cases hin : s.inRange (s.effectiveAddress rs imm)
      · exact memByte_memWrite_of_not_covers (ha _ (if_pos hin)) s _
      · rw [State.memWrite_outOfRange hin, State.setPc_memByte]
    | beq rs rt imm =>
      cases (exec_beq s rs rt imm).symm.trans h
      exact ⟨fun _ _ => rfl, (movesPcOnly_setPc s _).outside⟩
    | j a =>
      cases (exec_j s a).symm.trans h
      exact ⟨fun _ _ => rfl, (movesPcOnly_setPc s _).outside⟩
    | j3 a =>
      cases (exec_j3 s a).symm.trans h
      exact ⟨fun _ _ => rfl, (movesPcOnly_setPc s _).outside⟩
    | add | sub | and | or | nor | slt | addi | lw => cases hd

/-- Settles O23: no R-type meaning takes `shamt` as an argument. -/
theorem shiftAmountIsIgnored : Obligations.ShiftAmountIsIgnored :=
  fun _ _ _ _ _ _ => ⟨rfl, rfl, rfl, rfl, rfl, rfl⟩

/-! ### The rules of the I-type and J-type instructions -/

theorem add_sext16_eq_ofInt (v : Word) (imm : BitVec 16) : v + sext16 imm = BitVec.ofInt 32 (v.toNat + imm.toInt) := by
  have himm : imm.toNat < 65536 := imm.isLt
  apply BitVec.eq_of_toNat_eq
  rw [BitVec.toNat_add, toNat_sext16, BitVec.toNat_ofInt, BitVec.toInt_eq_toNat_cond]
  split_ifs <;> omega

/-- Settles O13: `addi` is selected by its opcode, and its sum over the integers is reduced once. -/
theorem addImmediateRule : Obligations.AddImmediateRule := by
  refine ⟨fun n w hn => decode_of_opAddi hn, fun s rt rs imm => ⟨_, exec_addi s rt rs imm, ?_⟩⟩
  rw [add_sext16_eq_ofInt]
  exact writesRegister_writeReg_setPc s rt _

/-- Settles O14: the four bytes exist exactly in range, and out of range the value read is 0. -/
theorem loadWordRule : Obligations.LoadWordRule := by
  refine ⟨fun n w hn => decode_of_opLw hn, fun s rt rs imm => ⟨fun b0 b1 b2 b3 h0 h1 h2 h3 => ?_, fun hout => ?_⟩⟩
  · obtain ⟨-, h0⟩ := memByte_eq_some_iff.1 h0
    obtain ⟨-, h1⟩ := memByte_eq_some_iff.1 h1
    obtain ⟨-, h2⟩ := memByte_eq_some_iff.1 h2
    obtain ⟨hlt, h3⟩ := memByte_eq_some_iff.1 h3
    have hin : s.inRange (s.effectiveAddress rs imm) := hlt
    have hword := Memory.readWord_toNat s.mem (s.effectiveAddress rs imm).toNat
    rw [h0, h1, h2, h3] at hword
    refine ⟨_, exec_lw s rt rs imm, ?_⟩
    rw [← hword, BitVec.ofNat_toNat, BitVec.setWidth_eq, State.memRead_inRange hin]
    exact writesRegister_writeReg_setPc s rt _
  · refine ⟨_, exec_lw s rt rs imm, ?_⟩
    rw [State.memRead_outOfRange (by omega)]
    exact writesRegister_writeReg_setPc s rt 0

/-- Settles O16: both outcomes only set the pc. -/
theorem branchEqualRule : Obligations.BranchEqualRule := by
  refine ⟨fun n w hn => decode_of_opBeq hn, fun s rs rt imm => ⟨fun heq => ?_, fun hne => ?_⟩⟩
  · rw [← branchTarget_eq_ofInt]
    exact ⟨_, exec_beq_of_eq heq imm, movesPcOnly_setPc ..⟩
  · exact ⟨_, exec_beq_of_ne hne imm, movesPcOnly_setPc ..⟩

theorem movesPcOnly_jumpTarget (s : State) (address : BitVec 26) :
    MovesPcOnly s (s.setPc (jumpTarget s.pc address))
      (BitVec.ofNat 32 (s.pc.toNat / 2 ^ 28 * 2 ^ 28 + address.toNat * 4)) := by
  rw [← jumpTarget_eq_ofNat]
  exact movesPcOnly_setPc ..

/-- Settles O18: the two jumps have one meaning. -/
theorem opcodeThreeJumpRule : Obligations.OpcodeThreeJumpRule :=
  ⟨fun n _ h => decode_of_opcode_three h n,
    fun s address => ⟨_, exec_j3 s address, movesPcOnly_jumpTarget s address, exec_j s address⟩⟩

/-! ### The sources of an instruction -/

section
variable {s t : State} (hsize : s.config.memSize = t.config.memSize) (hmem : s.mem = t.mem)
include hsize hmem

theorem memRead_congr (a : Word) : s.memRead a = t.memRead a := by
  simp only [State.memRead, State.inRange, hsize, hmem]

theorem mem_memWrite_congr (a v : Word) : (s.memWrite a v).mem = (t.memWrite a v).mem := by
  simp only [State.memWrite, State.inRange, hsize]
  split
  · simp only [hmem]
  · exact hmem

/-- The value written depends on the sources and, for `lw`, on the memory. -/
theorem exec_writes_same_of_sources {i : Instr} {d : Reg} (hd : i.dest? = some d)
    (hsources : ∀ r ∈ i.sources, s.readReg r = t.readReg r) :
    ∃ v, exec i s = .next ((s.writeReg d v).setPc (s.pc + 4)) ∧ exec i t = .next ((t.writeReg d v).setPc (t.pc + 4)) := by
  cases i with
  | add | sub | and | or | nor | slt =>
    cases hd
    have hrs := hsources _ List.mem_cons_self
    have hrt := hsources _ (List.mem_cons_of_mem _ List.mem_cons_self)
    simp only [exec_add, exec_sub, exec_and, exec_or, exec_nor, exec_slt, hrs, hrt]
    exact ⟨_, rfl, rfl⟩
  | addi rt rs imm =>
    cases hd
    rw [exec_addi, exec_addi, hsources rs List.mem_cons_self]
    exact ⟨_, rfl, rfl⟩
  | lw rt rs imm =>
    cases hd
    rw [exec_lw, exec_lw, State.effectiveAddress, State.effectiveAddress, hsources rs List.mem_cons_self,
      memRead_congr hsize hmem]
    exact ⟨_, rfl, rfl⟩
  | beq | sw | j | j3 => cases hd

/-- So do the target of a `beq` and the word and address of a `sw`. -/
theorem exec_moves_same_of_sources {i : Instr} (hd : i.dest? = none) (hpc : s.pc = t.pc)
    (hsources : ∀ r ∈ i.sources, s.readReg r = t.readReg r) :
    ∃ s' t', exec i s = .next s' ∧ exec i t = .next t' ∧ s'.pc = t'.pc ∧ s'.mem = t'.mem := by
  cases i with
  | beq rs rt imm =>
    have hrs := hsources rs List.mem_cons_self
    have hrt := hsources rt (List.mem_cons_of_mem _ List.mem_cons_self)
    refine ⟨_, _, exec_beq .., exec_beq .., ?_, hmem⟩
    rw [State.setPc_pc, State.setPc_pc, hrs, hrt, hpc]
  | sw rt rs imm =>
    have hrs := hsources rs List.mem_cons_self
    have hrt := hsources rt (List.mem_cons_of_mem _ List.mem_cons_self)
    refine ⟨_, _, exec_sw .., exec_sw .., ?_, ?_⟩
    · rw [State.setPc_pc, State.setPc_pc, hpc]
    · rw [State.setPc_mem, State.setPc_mem, State.effectiveAddress, State.effectiveAddress, hrs, hrt,
        mem_memWrite_congr hsize hmem]
  | j a => exact ⟨_, _, exec_j .., exec_j .., by rw [State.setPc_pc, State.setPc_pc, hpc], hmem⟩
  | j3 a => exact ⟨_, _, exec_j3 .., exec_j3 .., by rw [State.setPc_pc, State.setPc_pc, hpc], hmem⟩
  | add | sub | and | or | nor | slt | addi | lw => cases hd

end

/-- Settles O24: with a destination both states write one value to it, without one they take one pc and one memory. -/
theorem instructionsReadOnlyTheirSources : Obligations.InstructionsReadOnlyTheirSources := by
  intro i s t hconfig hpc hmem hsources
  have hsize : s.config.memSize = t.config.memSize := congrArg Config.memSize hconfig
  cases hd : i.dest? with
  | some d =>
    obtain ⟨v, hs, ht⟩ := exec_writes_same_of_sources hsize hmem hd hsources
    refine ⟨_, _, hs, ht, by rw [State.setPc_pc, State.setPc_pc, hpc], by simpa using hmem, fun d' hd' hnot => ?_⟩
    cases hd'
    rw [(writesRegister_writeReg_setPc s d v).written hnot, (writesRegister_writeReg_setPc t d v).written (hconfig ▸ hnot)]
  | none =>
    obtain ⟨s', t', hs, ht, hpc', hmem'⟩ := exec_moves_same_of_sources hsize hmem hd hpc hsources
    exact ⟨s', t', hs, ht, hpc', hmem', fun _ h => by cases h⟩

end Sys2Proof.Proofs
end

section
/-! What a step keeps and what it can change (40_decode_dispatch.md R70 to R79, 10_state.md R18, R23, R24). -/
namespace Sys2Proof.Proofs
open Sys2Proof.Machine

/-! ### Properties of the launch inputs, the registers and the memory -/

/-- A property that sees only configuration, program, registers and memory is kept by a word if `writeReg` and `memWrite`
keep it: the four ways a word acts are made of these two and of updates the property does not see. -/
theorem execWord_keeps {P : State → Prop}
    (hother : ∀ s t : State, P s → t.config = s.config → t.imem = s.imem → t.regs = s.regs → t.mem = s.mem → P t)
    (hreg : ∀ (s : State) (d : Reg) (v : Word), P s → P (s.writeReg d v))
    (hmem : ∀ (s : State) (ea v : Word), P s → P (s.memWrite ea v))
    {s t : State} {w : Word} (h : execWord w s = .next t) (hs : P s) : P t := by
  obtain ⟨_, d, v, -, -, he⟩ | ⟨_, _, _, -, he⟩ | ⟨_, _, -, -, -, -, he⟩ | ⟨_, -, -, he⟩ := execWord_cases w s
  all_goals cases he.symm.trans h
  · exact hother _ _ (hreg _ d v hs) rfl rfl rfl rfl
  · exact hother _ _ (hmem _ _ _ hs) rfl rfl rfl rfl
  · exact hother _ _ hs rfl rfl rfl rfl
  · exact hother _ _ hs rfl rfl rfl rfl

/-- The same for a step: the run controller's own updates are not seen either. -/
theorem step_keeps {P : State → Prop}
    (hother : ∀ s t : State, P s → t.config = s.config → t.imem = s.imem → t.regs = s.regs → t.mem = s.mem → P t)
    (hreg : ∀ (s : State) (d : Reg) (v : Word), P s → P (s.writeReg d v))
    (hmem : ∀ (s : State) (ea v : Word), P s → P (s.memWrite ea v))
    {s t : State} (h : step s = .next t) (hs : P s) : P t := by
  have hclear : P s.clearReport := hother _ _ hs rfl rfl rfl rfl
  obtain ⟨-, ⟨-, rfl⟩ | ⟨-, -, rfl⟩ | ⟨-, -, -, rfl⟩ | ⟨w, u, -, hu, rfl⟩⟩ := step_cases h
  · exact hclear
  · exact hother _ _ hclear rfl rfl rfl rfl
  · exact hother _ _ hclear rfl rfl rfl rfl
  · exact hother _ _ (execWord_keeps hother hreg hmem (t := u) hu hclear) rfl rfl rfl rfl

theorem step_keeps_inputs {s t : State} (h : step s = .next t) : t.imem = s.imem ∧ t.config = s.config := by
  refine step_keeps (P := fun u => u.imem = s.imem ∧ u.config = s.config) ?_ ?_ ?_ h ⟨rfl, rfl⟩
  · exact fun u v hu hconfig himem _ _ => ⟨himem.trans hu.1, hconfig.trans hu.2⟩
  · exact fun u d v hu => by rwa [State.writeReg_imem, State.writeReg_config]
  · exact fun u ea v hu => by rwa [State.memWrite_imem, State.memWrite_config]

theorem step_keeps_memCanonical {s t : State} (h : step s = .next t) (hs : s.mem.wf) : t.mem.wf := by
  refine step_keeps (P := fun u => u.mem.wf) ?_ ?_ ?_ h hs
  · exact fun u v hu _ _ _ hmem => hmem ▸ hu
  · exact fun u d v hu => by rwa [State.writeReg_mem]
  · exact fun u ea v hu => State.wf_memWrite hu ea v

/-- A store lists only addresses that exist: its bounds test is against the whole word. -/
theorem mem_memWrite_lt {s : State} (hs : ∀ c ∈ s.mem, c.1 < s.config.memSize) (ea v : Word) :
    ∀ c ∈ (s.memWrite ea v).mem, c.1 < s.config.memSize := by
  intro c hc
  by_cases hin : s.inRange ea
  · rw [State.memWrite_mem hin] at hc
    rcases Memory.mem_writeBytes hc with ⟨-, hlt⟩ | hc
    · exact lt_of_lt_of_le hlt hin
    · exact hs c hc
  · rw [State.memWrite_outOfRange hin] at hc
    exact hs c hc

theorem step_keeps_memInside {s t : State} (h : step s = .next t) (hs : ∀ c ∈ s.mem, c.1 < s.config.memSize) :
    ∀ c ∈ t.mem, c.1 < t.config.memSize := by
  refine step_keeps (P := fun u => ∀ c ∈ u.mem, c.1 < u.config.memSize) ?_ ?_ ?_ h hs
  · exact fun u v hu hconfig _ _ hmem => by rwa [hconfig, hmem]
  · exact fun u d v hu => by rwa [State.writeReg_mem, State.writeReg_config]
  · exact fun u ea v hu => by rw [State.memWrite_config]; exact mem_memWrite_lt hu ea v

theorem step_keeps_zeroHeld {s t : State} (h : step s = .next t) (hs : s.config.zeroHardwired = true → s.readReg 0 = 0) :
    t.config.zeroHardwired = true → t.readReg 0 = 0 := by
  refine step_keeps (P := fun u => u.config.zeroHardwired = true → u.readReg 0 = 0) ?_ ?_ ?_ h hs
  · intro u v hu hconfig _ hregs _ hz
    simpa only [State.readReg, hregs] using hu (hconfig ▸ hz)
  · intro u d v hu hz
    rw [State.writeReg_config] at hz
    rw [readReg_zero_writeReg hz, hu hz]
  · intro u ea v hu hz
    rw [State.memWrite_config] at hz
    rw [State.memWrite_readReg, hu hz]

theorem step_keeps_wordCount {s t : State} (h : step s = .next t) : t.wordCount = s.wordCount := by
  rw [State.wordCount, State.wordCount, (step_keeps_inputs h).1]

theorem step_keeps_stepBudget {s t : State} (h : step s = .next t) : t.stepBudget = s.stepBudget := by
  rw [State.stepBudget, State.stepBudget, step_keeps_wordCount h, (step_keeps_inputs h).2]

theorem step_keeps_launchLegal {s t : State} (h : step s = .next t) : t.LaunchLegal := by
  obtain ⟨hlegal, -⟩ := step_cases h
  rwa [State.LaunchLegal, step_keeps_wordCount h, (step_keeps_inputs h).2]

/-- Settles O48: no step changes either. -/
theorem runsNeverChangeTheProgram : Obligations.RunsNeverChangeTheProgram := by
  intro k s t h
  refine run_keeps (P := fun u => u.imem = s.imem ∧ u.config = s.config) (fun u v hu huv => ?_) ⟨rfl, rfl⟩ h
  obtain ⟨himem, hconfig⟩ := step_keeps_inputs huv
  exact ⟨himem.trans hu.1, hconfig.trans hu.2⟩

/-! ### The pc -/

theorem execWord_keeps_pcAligned {s t : State} {w : Word} (h : execWord w s = .next t) (hs : s.pc.toNat % 4 = 0) :
    t.pc.toNat % 4 = 0 := by
  obtain ⟨_, _, _, -, -, he⟩ | ⟨_, _, _, -, he⟩ | ⟨_, _, -, -, -, htarget, he⟩ | ⟨_, -, -, he⟩ := execWord_cases w s
  all_goals cases he.symm.trans h
  · exact toNat_add_four_mod_four hs
  · exact toNat_add_four_mod_four hs
  · obtain rfl | ⟨imm, rfl⟩ | ⟨a, rfl⟩ := htarget
    · exact toNat_add_four_mod_four hs
    · exact toNat_branchTarget_mod_four hs imm
    · exact toNat_jumpTarget_mod_four s.pc a
  · exact toNat_add_four_mod_four hs

theorem step_keeps_pcAligned {s t : State} (h : step s = .next t) (hs : s.pc.toNat % 4 = 0) : t.pc.toNat % 4 = 0 := by
  obtain ⟨-, ⟨-, rfl⟩ | ⟨-, -, rfl⟩ | ⟨-, -, -, rfl⟩ | ⟨w, u, -, hu, rfl⟩⟩ := step_cases h
  · exact hs
  · exact hs
  · exact hs
  · exact execWord_keeps_pcAligned (t := u) hu hs

/-! ### The count and the status -/

theorem execWord_executed {s t : State} {w : Word} (h : execWord w s = .next t) : t.executed = s.executed := by
  obtain ⟨_, _, _, -, -, he⟩ | ⟨_, _, _, -, he⟩ | ⟨_, _, -, -, -, -, he⟩ | ⟨_, -, -, he⟩ := execWord_cases w s
  all_goals cases he.symm.trans h
  · rw [State.setPc_executed, State.writeReg_executed]
  · rw [State.setPc_executed, State.memWrite_executed]
  · rfl
  · rfl

/-- A step ends the run, finds it ended, or executes a word and goes on; the count goes up in the last case alone. -/
theorem step_executed_status_cases {s t : State} (h : step s = .next t) :
    (s.status ≠ .running ∧ t.executed = s.executed ∧ t.status = s.status) ∨
    (s.status = .running ∧ 4 * s.wordCount ≤ s.pc.toNat ∧ t.executed = s.executed ∧ t.status = .halted) ∨
    (s.status = .running ∧ s.pc.toNat < 4 * s.wordCount ∧ s.stepBudget ≤ s.executed ∧ t.executed = s.executed ∧
      t.status = .aborted) ∨
    (∃ w, s.Executes w ∧ t.executed = s.executed + 1 ∧ t.status = .running) := by
  obtain ⟨-, ⟨hs, rfl⟩ | ⟨hs, hpc, rfl⟩ | ⟨hs, hpc, hb, rfl⟩ | ⟨w, u, hw, hu, rfl⟩⟩ := step_cases h
  · exact .inl ⟨hs, rfl, rfl⟩
  · exact .inr (.inl ⟨hs, hpc, rfl, rfl⟩)
  · exact .inr (.inr (.inl ⟨hs, hpc, hb, rfl, rfl⟩))
  · have hexecuted : u.executed = s.executed := execWord_executed (s := s.clearReport) hu
    exact .inr (.inr (.inr ⟨w, hw, congrArg (· + 1) hexecuted, (execWord_status hu).trans hw.running⟩))

/-- Settles O40: the case of an executed word, and the three others, in which the state executes none. -/
theorem executedCountsExecutedWords : Obligations.ExecutedCountsExecutedWords := by
  intro s t h
  obtain ⟨hs, he, -⟩ | ⟨hs, hpc, he, -⟩ | ⟨hs, -, hb, he, -⟩ | ⟨w, hw, he, -⟩ := step_executed_status_cases h
  · exact ⟨fun ⟨_, hw⟩ => absurd hw.running hs, fun _ => he⟩
  · exact ⟨fun ⟨_, hw⟩ => absurd (fetchWord_inside hw.fetched) (by omega), fun _ => he⟩
  · exact ⟨fun ⟨_, hw⟩ => absurd hw.budget (by omega), fun _ => he⟩
  · exact ⟨fun _ => he, fun hnone => absurd ⟨w, hw⟩ hnone⟩

/-! ### The report port and the log -/

/-- A word leaves port and log alone or reports itself as unknown. -/
theorem execWord_report_cases {s t : State} {w : Word} (h : execWord w s = .next t) :
    (t.report = s.report ∧ t.reportLog = s.reportLog) ∨
    (∃ e, (e = .unknownFunct s.pc w ∨ e = .unknownOpcode s.pc w) ∧ t.report = some e ∧
      t.reportLog = s.reportLog ++ [e]) := by
  obtain ⟨_, _, _, -, -, he⟩ | ⟨_, _, _, -, he⟩ | ⟨_, _, -, -, -, -, he⟩ | ⟨e, -, hevent, he⟩ := execWord_cases w s
  all_goals cases he.symm.trans h
  · exact .inl ⟨State.writeReg_report .., State.writeReg_reportLog ..⟩
  · exact .inl ⟨State.memWrite_report .., State.memWrite_reportLog ..⟩
  · exact .inl ⟨rfl, rfl⟩
  · exact .inr ⟨e, hevent, rfl, rfl⟩

/-- Settles O41: each of the four steps begins with the port cleared and emits at most once. -/
theorem logGrowsByThePortsEvent : Obligations.LogGrowsByThePortsEvent := by
  intro s t h
  obtain ⟨-, ⟨-, rfl⟩ | ⟨-, -, rfl⟩ | ⟨-, -, -, rfl⟩ | ⟨w, u, -, hu, rfl⟩⟩ := step_cases h
  · exact (List.append_nil _).symm
  · exact (List.append_nil _).symm
  · rfl
  · obtain ⟨hport, hlog⟩ | ⟨e, -, hport, hlog⟩ := execWord_report_cases hu
    · simp [hport, hlog]
    · simp [hport, hlog]

/-- The step guard's report is at the port exactly after a step that aborts. -/
theorem step_guardReport_iff {s t : State} (h : step s = .next t) :
    (∃ pc n, t.report = some (.stepBudgetExceeded pc n)) ↔ s.status = .running ∧ t.status = .aborted := by
  obtain ⟨-, ⟨hs, rfl⟩ | ⟨-, -, rfl⟩ | ⟨hs, -, -, rfl⟩ | ⟨w, u, hw, hu, rfl⟩⟩ := step_cases h
  · simp [hs]
  · simp
  · simp [hs]
  · have hstatus : u.status = .running := (execWord_status hu).trans hw.running
    obtain ⟨hport, -⟩ | ⟨e, rfl | rfl, hport, -⟩ := execWord_report_cases hu
    all_goals simp [hport, hstatus]

/-! ### The invariant -/

theorem step_keeps_guardReported {s t : State} (h : step s = .next t)
    (hs : (∃ pc n, Report.stepBudgetExceeded pc n ∈ s.reportLog) ↔ s.status = .aborted) :
    (∃ pc n, Report.stepBudgetExceeded pc n ∈ t.reportLog) ↔ t.status = .aborted := by
  have hlog : (∃ pc n, Report.stepBudgetExceeded pc n ∈ t.reportLog) ↔
      (∃ pc n, Report.stepBudgetExceeded pc n ∈ s.reportLog) ∨ ∃ pc n, t.report = some (.stepBudgetExceeded pc n) := by
    simp only [logGrowsByThePortsEvent s t h, List.mem_append, Option.mem_toList, exists_or]
  rw [hlog, hs, step_guardReport_iff h]
  obtain ⟨hr, -, ht⟩ | ⟨hr, -, -, ht⟩ | ⟨hr, -, -, -, ht⟩ | ⟨w, hw, -, ht⟩ := step_executed_status_cases h
  · simp [hr, ht]
  · simp [hr, ht]
  · simp [hr, ht]
  · simp [hw.running, ht]

/-- A terminal cycle changes only the port, and a cycle that ends the run leaves the pc where it is. -/
theorem step_pc_of_not_running {s t : State} (h : step s = .next t) (ht : t.status ≠ .running) : t.pc = s.pc := by
  obtain ⟨-, ⟨-, rfl⟩ | ⟨-, -, rfl⟩ | ⟨-, -, -, rfl⟩ | ⟨w, u, hw, hu, rfl⟩⟩ := step_cases h
  · rfl
  · rfl
  · rfl
  · exact absurd ((execWord_status hu).trans hw.running) ht

/-- Settles O47: clause by clause, the last four by what each step does to count, status and log. -/
theorem stepKeepsTheInvariant : Obligations.StepKeepsTheInvariant := by
  intro s t hs h
  refine ⟨?_, step_keeps_launchLegal h⟩
  have hcases := step_executed_status_cases h
  have hbudget := step_keeps_stepBudget h
  have hcount := step_keeps_wordCount h
  have hwithin := hs.withinBudget
  constructor
  case memCanonical => exact step_keeps_memCanonical h hs.memCanonical
  case memInside => exact step_keeps_memInside h hs.memInside
  case pcAligned => exact step_keeps_pcAligned h hs.pcAligned
  case zeroHeld => exact step_keeps_zeroHeld h hs.zeroHeld
  case withinBudget =>
    rw [hbudget]
    obtain ⟨-, he, -⟩ | ⟨-, -, he, -⟩ | ⟨-, -, -, he, -⟩ | ⟨w, hw, he, -⟩ := hcases
    · omega
    · omega
    · omega
    · have := hw.budget
      omega
  case portIsLast =>
    intro e he
    rw [logGrowsByThePortsEvent s t h, he]
    exact List.getLast?_concat
  case haltedOutside =>
    intro ht
    rw [step_pc_of_not_running h (by simp [ht]), hcount]
    obtain ⟨-, -, hst⟩ | ⟨-, hpc, -, -⟩ | ⟨-, -, -, -, hst⟩ | ⟨-, -, -, hst⟩ := hcases
    · exact hs.haltedOutside (hst.symm.trans ht)
    · exact hpc
    · cases hst.symm.trans ht
    · cases hst.symm.trans ht
  case abortedInside =>
    intro ht
    rw [step_pc_of_not_running h (by simp [ht]), hcount, hbudget]
    obtain ⟨-, he, hst⟩ | ⟨-, -, -, hst⟩ | ⟨-, hpc, hb, he, -⟩ | ⟨-, -, -, hst⟩ := hcases
    · rw [he]
      exact hs.abortedInside (hst.symm.trans ht)
    · cases hst.symm.trans ht
    · exact ⟨by omega, hpc⟩
    · cases hst.symm.trans ht
  case guardReported => exact step_keeps_guardReported h hs.guardReported

/-- Settles O46: the presets, and an empty run before any cycle. -/
theorem launchMeetsTheInvariant : Obligations.LaunchMeetsTheInvariant := by
  intro c imem regs0 mem0 hc
  refine ⟨?_, hc⟩
  constructor
  case memCanonical => exact Memory.wf_preset c.memSize mem0
  case memInside => exact fun _ => mem_preset_lt
  case pcAligned => rfl
  case zeroHeld => exact fun hz => (readReg_launch c imem regs0 mem0 0).trans (if_pos ⟨hz, rfl⟩)
  case withinBudget => exact Nat.zero_le _
  case portIsLast => exact fun _ he => by cases he
  case haltedOutside => exact fun h => by cases h
  case abortedInside => exact fun h => by cases h
  case guardReported => simp [State.launch]

/-- Settles O45: the reset state is a legal launch. -/
theorem resetMeetsTheInvariant : Obligations.ResetMeetsTheInvariant :=
  (launchMeetsTheInvariant {} [] (Vector.replicate 32 0) [] (by decide)).1

end Sys2Proof.Proofs
end

section
/-! The datapath of R76's control table, row by row (40_decode_dispatch.md R76 to R78, decision D14). -/
namespace Sys2Proof.Proofs
open Sys2Proof.Machine

/-! ### The ALU functions that the meanings compute otherwise -/

theorem eval_nor (x y : Word) : AluFn.nor.eval x y = ~~~(x ||| y) := (BitVec.not_or ..).symm

theorem eval_slt (x y : Word) : AluFn.slt.eval x y = sltValue x y := by
  simp only [AluFn.eval, sltValue, sub_neg]

theorem some_eval_equal_eq_one_iff (x y : Word) : some (AluFn.equal.eval x y) = some 1 ↔ x = y := by
  simp only [AluFn.eval, sub_eq_zero, Option.some_inj]
  by_cases h : x = y <;> simp [h]

/-! ### What each kind of row makes the datapath do -/

section
variable (w : Word) (s : State)

theorem datapath_aluToRd (fn : AluFn) :
    ({ alu := some (fn, .b), regWrite := some (.rd, .alu) } : Signals).datapath w s =
      (s.writeReg (fields w).rd (fn.eval (s.readReg (fields w).rs) (s.readReg (fields w).rt))).setPc (s.pc + 4) := rfl

theorem datapath_sumToRt :
    ({ alu := some (.add, .s), regWrite := some (.rt, .alu) } : Signals).datapath w s =
      (s.writeReg (fields w).rt (s.readReg (fields w).rs + sext16 (fields w).immediate)).setPc (s.pc + 4) := rfl

theorem datapath_load :
    ({ alu := some (.add, .s), regWrite := some (.rt, .memRead), memRead := true } : Signals).datapath w s =
      (s.writeReg (fields w).rt (s.memRead (s.effectiveAddress (fields w).rs (fields w).immediate))).setPc (s.pc + 4) := rfl

theorem datapath_store :
    ({ alu := some (.add, .s), memWrite := true } : Signals).datapath w s =
      (s.memWrite (s.effectiveAddress (fields w).rs (fields w).immediate) (s.readReg (fields w).rt)).setPc (s.pc + 4) := rfl

theorem datapath_jump :
    ({ nextPc := .jumpTarget } : Signals).datapath w s = s.setPc (jumpTarget s.pc (fields w).address) := rfl

/-- The ALU answers 1 on a zero difference, which is equality. -/
theorem datapath_branch :
    ({ alu := some (.equal, .b), nextPc := .targetIfEqual } : Signals).datapath w s =
      s.setPc (if s.readReg (fields w).rs = s.readReg (fields w).rt
        then branchTarget s.pc (fields w).immediate else s.pc + 4) := by
  simp only [← some_eval_equal_eq_one_iff]
  rfl

theorem datapath_report (e : ReportKind) :
    ({ report := some e } : Signals).datapath w s =
      (s.emit (match e with | .unknownFunct => .unknownFunct s.pc w | .unknownOpcode => .unknownOpcode s.pc w)).setPc
        (s.pc + 4) := by
  cases e <;> rfl

end

/-! ### Every row is its instruction -/

/-- For an instruction the operands are the fields of its word, the word being its encoding. -/
theorem exec_eq_datapath (n : Numerals) (i : Instr) (s : State) :
    exec i s = .next ((controlSignals (.instr i)).datapath (encode n i) s) := by
  cases i with
  | add => rw [exec_add, controlSignals, datapath_aluToRd]; simp [encode, AluFn.eval]
  | sub => rw [exec_sub, controlSignals, datapath_aluToRd]; simp [encode, AluFn.eval]
  | and => rw [exec_and, controlSignals, datapath_aluToRd]; simp [encode, AluFn.eval]
  | or => rw [exec_or, controlSignals, datapath_aluToRd]; simp [encode, AluFn.eval]
  | nor => rw [exec_nor, controlSignals, datapath_aluToRd, eval_nor]; simp [encode]
  | slt => rw [exec_slt, controlSignals, datapath_aluToRd, eval_slt]; simp [encode]
  | beq => rw [exec_beq, controlSignals, datapath_branch]; simp [encode]
  | addi => rw [exec_addi, controlSignals, datapath_sumToRt]; simp [encode]
  | lw => rw [exec_lw, controlSignals, datapath_load]; simp [encode]
  | sw => rw [exec_sw, controlSignals, datapath_store]; simp [encode]
  | j => rw [exec_j, controlSignals, datapath_jump]; simp [encode]
  | j3 => rw [exec_j3, controlSignals, datapath_jump]; simp [encode]

/-- Settles O25: row by row of R76's table. -/
theorem controlSignalsDriveTheSameExecution : Obligations.ControlSignalsDriveTheSameExecution := by
  intro w s
  cases hw : decode s.config.numerals w with
  | instr i =>
    have henc : encode s.config.numerals i = w := encodeInvertsDecode _ _ _ hw
    rw [execWord_of_decode_eq_instr hw, exec_eq_datapath s.config.numerals i s, henc]
  | unknownFunct =>
    rw [controlSignals, datapath_report]
    simp only [execWord, hw]
    rfl
  | unknownOpcode =>
    rw [controlSignals, datapath_report]
    simp only [execWord, hw]
    rfl

end Sys2Proof.Proofs
end

section
/-! The steps of the machine, one by one (40_decode_dispatch.md R70 to R79, 60_exceptions.md R98). -/
namespace Sys2Proof.Proofs
open Sys2Proof.Machine

/-! ### Which step it is -/

theorem step_of_not_running {s : State} (hl : s.LaunchLegal) (hr : s.status ≠ .running) : step s = .next s.clearReport := by
  rw [step_legal hl, cycle]
  cases hs : s.status with
  | running => exact absurd hs hr
  | halted => rfl
  | aborted => rfl

theorem fetchWord_of_inside {s : State} (hpc : s.pc.toNat < 4 * s.wordCount) : ∃ w, s.fetchWord = some w := by
  refine Option.ne_none_iff_exists'.1 fun hnone => ?_
  have hout := (fetchWord_eq_none_iff s).1 hnone
  omega

theorem step_aborts {s : State} (hl : s.LaunchLegal) (hr : s.status = .running) (hpc : s.pc.toNat < 4 * s.wordCount)
    (hb : s.stepBudget ≤ s.executed) : step s = .next s.clearReport.abort := by
  obtain ⟨w, hw⟩ := fetchWord_of_inside hpc
  rw [step_legal hl]
  simp only [cycle, hr, runningCycle, hw, if_pos hb]

theorem step_illegal {s : State} (hl : ¬ s.LaunchLegal) : step s = .refused .launchOutOfRange := if_neg hl

/-- A word always has an outcome: an instruction's, or that of its reserved space. -/
theorem execWord_completes (w : Word) (s : State) : ∃ t, execWord w s = .next t := by
  obtain ⟨_, _, _, -, -, he⟩ | ⟨_, _, _, -, he⟩ | ⟨_, _, -, -, -, -, he⟩ | ⟨_, -, -, he⟩ := execWord_cases w s
  all_goals exact ⟨_, he⟩

/-- The four steps of a legal state. -/
theorem step_completes {s : State} (hl : s.LaunchLegal) : ∃ t, step s = .next t := by
  by_cases hr : s.status = .running
  · by_cases hpc : s.pc.toNat < 4 * s.wordCount
    · by_cases hb : s.stepBudget ≤ s.executed
      · exact ⟨_, step_aborts hl hr hpc hb⟩
      · obtain ⟨w, hw⟩ := fetchWord_of_inside hpc
        obtain ⟨t, ht⟩ := execWord_completes w s.clearReport
        exact ⟨_, by rw [step_executes ⟨hl, hr, hw, by omega⟩, ht, countExecuted_next]⟩
    · exact ⟨_, step_halts hl hr (by omega)⟩
  · exact ⟨_, step_of_not_running hl hr⟩

/-- Settles O42: by whether the launch is legal. -/
theorem stepStopsOnlyOnAnIllegalLaunch : Obligations.StepStopsOnlyOnAnIllegalLaunch := by
  intro s
  by_cases hl : s.LaunchLegal
  · obtain ⟨t, ht⟩ := step_completes hl
    rw [ht]
    exact ⟨nofun, fun r => ⟨nofun, fun ⟨_, hillegal⟩ => absurd hl hillegal⟩, fun _ => ⟨t, rfl⟩⟩
  · rw [step_illegal hl]
    refine ⟨nofun, fun r => ⟨fun h => ?_, fun ⟨hr, _⟩ => hr ▸ rfl⟩, fun h => absurd h hl⟩
    cases h
    exact ⟨rfl, hl⟩

/-- Settles O34: the terminal cycle. -/
theorem terminalStatusIsLeftByNoStep : Obligations.TerminalStatusIsLeftByNoStep :=
  fun _ => step_of_not_running

/-- Settles O33: the abort, and the two ways to give the budget. -/
theorem stepGuardAbortsTheRun : Obligations.StepGuardAbortsTheRun := by
  refine ⟨fun s => step_aborts, fun s hnone => ?_, fun s b hsome => ?_⟩
  · rw [State.stepBudget, hnone, Option.getD_none]
  · rw [State.stepBudget, hsome, Option.getD_some]

/-- Settles O37: R4's bound leaves room for one word more below `2 ^ 32`. -/
theorem fallThroughNeverWraps : Obligations.FallThroughNeverWraps := by
  intro s hl hpc haligned
  have hcount : s.wordCount ≤ 2 ^ 30 - 1 := hl.2.2
  have h4 : (4 : Word).toNat = 4 := rfl
  have hend : 4 * s.wordCount ≤ 2 ^ 32 - 4 := by omega
  refine ⟨hend, ?_⟩
  rw [BitVec.toNat_add_of_lt (by omega), h4]

/-! ### A step that executes a word -/

/-- Settles O31: the decoded instruction completes, and leaves the count to the step. -/
theorem stepRunsTheDecodedInstruction : Obligations.StepRunsTheDecodedInstruction := by
  intro s w i hs hw
  obtain ⟨t, ht⟩ := everyInstructionCompletes i s.clearReport
  obtain ⟨-, -, -, houtside⟩ := everyInstructionKeepsItsFrame i _ t ht
  refine ⟨t, ht, ?_⟩
  rw [step_executes hs, execWord_of_decode_eq_instr (s := s.clearReport) hw, ht, countExecuted_next, houtside.executed,
    State.clearReport_executed]

theorem execWord_of_unknownFunct {s : State} {w : Word} (h : decode s.config.numerals w = .unknownFunct) :
    execWord w s = .next ((s.emit (.unknownFunct s.pc w)).setPc (s.pc + 4)) := by
  simp only [execWord, h]
  rfl

theorem execWord_of_unknownOpcode {s : State} {w : Word} (h : decode s.config.numerals w = .unknownOpcode) :
    execWord w s = .next ((s.emit (.unknownOpcode s.pc w)).setPc (s.pc + 4)) := by
  simp only [execWord, h]
  rfl

/-- "Report and skip" as a whole cycle, for either reserved space. -/
theorem step_reportsAndSkips {s : State} {w : Word} {e : Report} (hs : s.Executes w)
    (he : execWord w s.clearReport = .next ((s.clearReport.emit e).setPc (s.pc + 4))) :
    ∃ t, step s = .next t ∧ ReportedAndSkipped s t e := by
  refine ⟨_, by rw [step_executes hs, he, countExecuted_next], ?_⟩
  exact ⟨rfl, rfl, rfl, rfl, rfl, fun _ => rfl, fun _ => rfl, rfl, rfl⟩

/-- Settles O19: such a word decodes to the unknown function code. -/
theorem unknownFunctionCodeIsReportedAndSkipped : Obligations.UnknownFunctionCodeIsReportedAndSkipped :=
  fun s w hs h0 hf => step_reportsAndSkips hs
    (execWord_of_unknownFunct (s := s.clearReport) ((decode_eq_unknownFunct_iff _ w).2 ⟨h0, hf⟩))

/-- A word that is no transfer of control goes on to the next one. -/
theorem execWord_pc_of_no_transfer {s t : State} {w : Word} (h : execWord w s = .next t)
    (hjump : ∀ a, decode s.config.numerals w ≠ .instr (.j a) ∧ decode s.config.numerals w ≠ .instr (.j3 a))
    (hbeq : ∀ rs rt imm, decode s.config.numerals w = .instr (.beq rs rt imm) → s.readReg rs ≠ s.readReg rt) :
    t.pc = s.pc + 4 := by
  cases hw : decode s.config.numerals w with
  | unknownFunct => cases (execWord_of_unknownFunct hw).symm.trans h; rfl
  | unknownOpcode => cases (execWord_of_unknownOpcode hw).symm.trans h; rfl
  | instr i =>
    have hi : exec i s = .next t := (execWord_of_decode_eq_instr hw).symm.trans h
    cases hd : i.dest? with
    | some d =>
      obtain ⟨v, hv⟩ := exec_of_dest?_eq_some hd s
      cases hv.symm.trans hi
      rfl
    | none =>
      cases i with
      | beq rs rt imm => cases (exec_beq_of_ne (hbeq rs rt imm hw) imm).symm.trans hi; rfl
      | sw rt rs imm => cases (exec_sw s rt rs imm).symm.trans hi; rfl
      | j a => exact absurd hw (hjump a).1
      | j3 a => exact absurd hw (hjump a).2
      | add | sub | and | or | nor | slt | addi | lw => cases hd

/-- A step of a state that executes `w` is what `w` does, counted. -/
theorem step_executes_cases {s t : State} {w : Word} (hs : s.Executes w) (h : step s = .next t) :
    ∃ u, execWord w s.clearReport = .next u ∧ t = { u with executed := u.executed + 1 } := by
  obtain ⟨u, hu⟩ := execWord_completes w s.clearReport
  rw [step_executes hs, hu, countExecuted_next] at h
  cases h
  exact ⟨u, hu, rfl⟩

/-- Settles O36: the count and the cleared port leave the pc alone. -/
theorem everythingElseAdvancesThePcByFour : Obligations.EverythingElseAdvancesThePcByFour := by
  intro s t w hs h hjump hbeq
  obtain ⟨u, hu, rfl⟩ := step_executes_cases hs h
  exact execWord_pc_of_no_transfer (s := s.clearReport) (t := u) hu hjump hbeq

/-- Settles O38: of the four steps, and of the four ways a word acts, one alone writes a register. -/
theorem changedRegisterIsTheDestination : Obligations.ChangedRegisterIsTheDestination := by
  intro s t r h hchanged
  obtain ⟨-, ⟨-, rfl⟩ | ⟨-, -, rfl⟩ | ⟨-, -, -, rfl⟩ | ⟨w, u, hw, hu, rfl⟩⟩ := step_cases h
  · exact absurd rfl hchanged
  · exact absurd rfl hchanged
  · exact absurd rfl hchanged
  · have hchanged : u.readReg r ≠ s.readReg r := hchanged
    obtain ⟨i, d, v, hi, hd, he⟩ | ⟨_, _, _, -, he⟩ | ⟨_, _, -, -, -, -, he⟩ | ⟨_, -, -, he⟩ :=
      execWord_cases w s.clearReport
    all_goals cases he.symm.trans hu
    · by_cases hr : r = d
      · exact ⟨w, i, hw, hi, hr ▸ hd⟩
      · exact absurd (State.readReg_writeReg_of_ne (s := s.clearReport) hr v) hchanged
    · exact absurd (State.memWrite_readReg s.clearReport _ _ r) hchanged
    · exact absurd rfl hchanged
    · exact absurd rfl hchanged

/-- Settles O39: likewise one alone writes memory, in range and nowhere but in its word. -/
theorem changedByteIsTheStores : Obligations.ChangedByteIsTheStores := by
  intro s t a h hchanged
  obtain ⟨-, ⟨-, rfl⟩ | ⟨-, -, rfl⟩ | ⟨-, -, -, rfl⟩ | ⟨w, u, hw, hu, rfl⟩⟩ := step_cases h
  · exact absurd rfl hchanged
  · exact absurd rfl hchanged
  · exact absurd rfl hchanged
  · have hchanged : u.memByte a ≠ s.memByte a := hchanged
    obtain ⟨_, d, v, -, -, he⟩ | ⟨rt, rs, imm, hi, he⟩ | ⟨_, _, -, -, -, -, he⟩ | ⟨_, -, -, he⟩ :=
      execWord_cases w s.clearReport
    all_goals cases he.symm.trans hu
    · exact absurd (State.writeReg_memByte s.clearReport d v a) hchanged
    · refine ⟨w, rt, rs, imm, hw, hi, ?_, ?_⟩
      · by_contra hout
        have hsame := congrArg (State.memByte · a) (State.memWrite_outOfRange (s := s.clearReport) hout (s.readReg rt))
        exact hchanged hsame
      · by_contra hnot
        exact hchanged (memByte_memWrite_of_not_covers hnot s.clearReport (s.readReg rt))
    · exact absurd rfl hchanged
    · exact absurd rfl hchanged

end Sys2Proof.Proofs
end

section
/-! `VERBOSE` has no effect (00_scope.md R4), and what `placeNext` builds (log entry 8). -/
namespace Sys2Proof.Proofs
open Sys2Proof.Machine

/-! ### `VERBOSE` -/

/-- The state with `VERBOSE` set to `b`. -/
def withVerbose (b : Bool) (s : State) : State := { s with config := { s.config with verbose := b } }

theorem writeReg_withVerbose (b : Bool) (s : State) (d : Reg) (v : Word) :
    (withVerbose b s).writeReg d v = withVerbose b (s.writeReg d v) := by
  by_cases hzero : s.config.zeroHardwired = true ∧ d = 0
  · rw [State.writeReg_hardwired (s := withVerbose b s) hzero, State.writeReg_hardwired hzero]
  · rw [State.writeReg, State.writeReg, if_neg hzero]
    exact if_neg hzero

theorem memWrite_withVerbose (b : Bool) (s : State) (ea v : Word) :
    (withVerbose b s).memWrite ea v = withVerbose b (s.memWrite ea v) := by
  by_cases hin : s.inRange ea
  · rw [State.memWrite, State.memWrite, if_pos hin]
    exact if_pos hin
  · rw [State.memWrite_outOfRange (s := withVerbose b s) hin, State.memWrite_outOfRange hin]

theorem exec_withVerbose {i : Instr} {s t : State} (h : exec i s = .next t) (b : Bool) :
    exec i (withVerbose b s) = .next (withVerbose b t) := by
  cases hd : i.dest? with
  | some d =>
    obtain ⟨v, hs, hb⟩ := exec_writes_same_of_sources (s := s) (t := withVerbose b s) rfl rfl hd fun _ _ => rfl
    cases hs.symm.trans h
    rw [hb, writeReg_withVerbose]
    rfl
  | none =>
    cases i with
    | sw rt rs imm =>
      cases (exec_sw s rt rs imm).symm.trans h
      rw [exec_sw, memWrite_withVerbose]
      rfl
    | beq rs rt imm => cases (exec_beq s rs rt imm).symm.trans h; exact exec_beq ..
    | j a => cases (exec_j s a).symm.trans h; rfl
    | j3 a => cases (exec_j3 s a).symm.trans h; rfl
    | add | sub | and | or | nor | slt | addi | lw => cases hd

theorem execWord_withVerbose {w : Word} {s t : State} (h : execWord w s = .next t) (b : Bool) :
    execWord w (withVerbose b s) = .next (withVerbose b t) := by
  cases hw : decode s.config.numerals w with
  | instr i =>
    rw [execWord_of_decode_eq_instr (s := withVerbose b s) hw]
    exact exec_withVerbose ((execWord_of_decode_eq_instr hw).symm.trans h) b
  | unknownFunct =>
    cases (execWord_of_unknownFunct hw).symm.trans h
    exact execWord_of_unknownFunct (s := withVerbose b s) hw
  | unknownOpcode =>
    cases (execWord_of_unknownOpcode hw).symm.trans h
    exact execWord_of_unknownOpcode (s := withVerbose b s) hw

/-- Settles O43: each of the four steps is the same step of the state with the other `VERBOSE`. -/
theorem verboseHasNoEffect : Obligations.VerboseHasNoEffect := by
  intro s t b h
  obtain ⟨hl, ⟨hr, rfl⟩ | ⟨hr, hpc, rfl⟩ | ⟨hr, hpc, hb, rfl⟩ | ⟨w, u, hw, hu, rfl⟩⟩ := step_cases h
  · exact step_of_not_running (s := withVerbose b s) hl hr
  · exact step_halts (s := withVerbose b s) hl hr hpc
  · exact step_aborts (s := withVerbose b s) hl hr hpc hb
  · have hexecutes : (withVerbose b s).Executes w := ⟨hw.legal, hw.running, hw.fetched, hw.budget⟩
    have hword : execWord w (withVerbose b s).clearReport = .next (withVerbose b u) := execWord_withVerbose hu b
    exact (step_executes hexecutes).trans (by rw [hword]; rfl)

/-! ### The placed word -/

theorem getElem?_placeWord (ws : List Word) (k : Nat) (w : Word) : (placeWord ws k w)[k]? = some w := by
  induction ws, k, w using placeWord.induct with
  | case1 => rfl
  | case2 k w ih => exact ih
  | case3 => rfl
  | case4 x ws k w ih => exact ih

theorem length_placeWord (ws : List Word) (k : Nat) (w : Word) : (placeWord ws k w).length = max ws.length (k + 1) := by
  induction ws, k, w using placeWord.induct with
  | case1 => rfl
  | case2 k w ih => simp [placeWord, ih]
  | case3 => simp [placeWord]
  | case4 x ws k w ih => simp [placeWord, ih]

/-- Budget is left after it, and it changes nothing but the budget. -/
theorem withBudgetLeft_cases (s : State) :
    (s.withBudgetLeft = s ∧ s.executed < s.stepBudget) ∨
    s.withBudgetLeft = { s with config := { s.config with stepBudget := some (s.executed + 1) } } := by
  unfold State.withBudgetLeft
  split
  case isTrue h => exact .inl ⟨rfl, h⟩
  case isFalse => exact .inr rfl

/-- Settles O44: the program reaches at most to the placed word, which R4 allows where the pc is in reach. -/
theorem placedWordIsExecutedNext : Obligations.PlacedWordIsExecutedNext := by
  intro s w hl hpc
  obtain ⟨hnumerals, hmem, hcount⟩ := hl
  have hcount' : (placeWord s.imem (s.pc.toNat / 4) w).length ≤ maxWordCount := by
    have hold : s.imem.length ≤ maxWordCount := hcount
    rw [length_placeWord]
    omega
  have hfetched := getElem?_placeWord s.imem (s.pc.toNat / 4) w
  unfold State.placeNext
  obtain ⟨he, hb⟩ | he :=
    withBudgetLeft_cases { s with imem := placeWord s.imem (s.pc.toNat / 4) w, status := .running }
  · rw [he]
    exact ⟨⟨⟨hnumerals, hmem, hcount'⟩, rfl, hfetched, hb⟩, rfl, rfl, rfl, rfl, rfl⟩
  · rw [he]
    exact ⟨⟨⟨hnumerals, hmem, hcount'⟩, rfl, hfetched, Nat.lt_succ_self _⟩, rfl, rfl, rfl, rfl, rfl⟩

end Sys2Proof.Proofs
end

section
/-! Whole runs: their end (40_decode_dispatch.md R72) and the memory they leave (20_memory.md R41). -/
namespace Sys2Proof.Proofs
open Sys2Proof.Machine

/-! ### Every run ends -/

theorem budget_and_count_of_running_after {s t : State} (h : step s = .next t) (ht : t.status = .running) :
    s.executed < s.stepBudget ∧ t.executed = s.executed + 1 := by
  obtain ⟨hr, -, hst⟩ | ⟨-, -, -, hst⟩ | ⟨-, -, -, -, hst⟩ | ⟨w, hw, he, -⟩ := step_executed_status_cases h
  · exact absurd (hst.symm.trans ht) hr
  · cases hst.symm.trans ht
  · cases hst.symm.trans ht
  · exact ⟨hw.budget, he⟩

theorem executed_of_ended_after {s t : State} (h : step s = .next t) (ht : t.status ≠ .running) :
    t.executed = s.executed := by
  obtain ⟨-, he, -⟩ | ⟨-, -, he, -⟩ | ⟨-, -, -, he, -⟩ | ⟨-, -, -, hst⟩ := step_executed_status_cases h
  · exact he
  · exact he
  · exact he
  · exact absurd hst ht

/-- An ended run stays ended, with the count it has. -/
theorem run_of_not_running {s : State} (hl : s.LaunchLegal) (hr : s.status ≠ .running) (k : Nat) :
    ∃ t, Host.Core.run Sys2Proof.core k s = .next t ∧ t.status ≠ .running ∧ t.executed = s.executed := by
  induction k generalizing s with
  | zero => exact ⟨s, run_zero s, hr, rfl⟩
  | succ k ih =>
    rw [run_succ (step_of_not_running hl hr)]
    exact ih (s := s.clearReport) hl hr

/-- With at most `n` instructions of budget left, the run has ended after `n + 1` cycles. -/
theorem run_ends {s : State} {n : Nat} (hl : s.LaunchLegal) (hle : s.executed ≤ s.stepBudget)
    (hn : s.stepBudget ≤ s.executed + n) :
    ∃ t, Host.Core.run Sys2Proof.core (n + 1) s = .next t ∧ t.status ≠ .running ∧ t.executed ≤ s.stepBudget := by
  induction n generalizing s with
  | zero =>
    obtain ⟨u, hu⟩ := step_completes hl
    have hend : u.status ≠ .running := fun hrun => absurd (budget_and_count_of_running_after hu hrun).1 (by omega)
    exact ⟨u, by rw [run_succ hu, run_zero], hend, by rwa [executed_of_ended_after hu hend]⟩
  | succ n ih =>
    obtain ⟨u, hu⟩ := step_completes hl
    rw [run_succ hu]
    have hbudget := step_keeps_stepBudget hu
    by_cases hrun : u.status = .running
    · obtain ⟨hlt, he⟩ := budget_and_count_of_running_after hu hrun
      rw [← hbudget]
      exact ih (step_keeps_launchLegal hu) (by omega) (by omega)
    · obtain ⟨t, ht, hend, he⟩ := run_of_not_running (step_keeps_launchLegal hu) hrun (n + 1)
      exact ⟨t, ht, hend, by rwa [he, executed_of_ended_after hu hrun]⟩

/-- Settles O49: a launch has executed nothing yet, so its whole budget is left. -/
theorem everyRunEndsWithinItsBudget : Obligations.EveryRunEndsWithinItsBudget :=
  fun c imem regs0 mem0 hc => run_ends (s := State.launch c imem regs0 mem0) hc (Nat.zero_le _) (Nat.le_add_left _ _)

/-! ### The memory a run leaves -/

theorem cycleStore_of_executes {s : State} {w : Word} (hs : s.Executes w) :
    s.cycleStore = (decode s.config.numerals w).instr?.bind fun i => i.store? s := by
  simp only [State.cycleStore, hs.running, hs.fetched, if_pos hs.budget]

theorem cycleStore_of_executes_nothing {s : State} (hl : s.LaunchLegal) (hs : ¬ ∃ w, s.Executes w) :
    s.cycleStore = none := by
  unfold State.cycleStore
  split
  · rename_i w hr hf
    exact if_neg fun hb => hs ⟨w, hl, hr, hf, hb⟩
  · rfl

/-- An instruction with a destination stores nothing. -/
theorem store?_of_dest?_eq_some {i : Instr} {d : Reg} (hd : i.dest? = some d) (s : State) : i.store? s = none := by
  cases i with
  | beq | sw | j | j3 => cases hd
  | add | sub | and | or | nor | slt | addi | lw => rfl

theorem store?_clearReport (i : Instr) (s : State) : i.store? s.clearReport = i.store? s := by
  cases i <;> rfl

/-- A memory after the store a cycle makes, if it makes one. -/
def afterStore (m : Memory) (store : Option (Word × Word)) : Memory :=
  store.elim m fun p => m.writeWord p.1.toNat p.2

/-- A word changes memory by its instruction's store and in no other way. -/
theorem execWord_mem {s t : State} {w : Word} (h : execWord w s = .next t) :
    t.mem = afterStore s.mem ((decode s.config.numerals w).instr?.bind fun i => i.store? s) := by
  obtain ⟨i, d, v, hi, hd, he⟩ | ⟨rt, rs, imm, hi, he⟩ | ⟨i, _, hi, -, hstore, -, he⟩ | ⟨_, hi, -, he⟩ :=
    execWord_cases w s
  all_goals cases he.symm.trans h
  · rw [hi, Decoded.instr?, Option.bind_some, store?_of_dest?_eq_some hd, State.setPc_mem, State.writeReg_mem]
    rfl
  · rw [hi, Decoded.instr?, Option.bind_some, Instr.store?, State.setPc_mem]
    split
    case isTrue hin => exact State.memWrite_mem hin _
    case isFalse hout => exact congrArg State.mem (State.memWrite_outOfRange hout _)
  · rw [hi, Decoded.instr?, Option.bind_some, hstore]
    rfl
  · rw [hi]
    rfl

theorem step_mem {s t : State} (h : step s = .next t) : t.mem = afterStore s.mem s.cycleStore := by
  by_cases hs : ∃ w, s.Executes w
  · obtain ⟨w, hw⟩ := hs
    obtain ⟨u, hu, rfl⟩ := step_executes_cases hw h
    have hmem := execWord_mem hu
    simp only [store?_clearReport] at hmem
    rw [cycleStore_of_executes hw]
    exact hmem
  · have hcount := (executedCountsExecutedWords s t h).2 hs
    obtain ⟨hl, ⟨-, rfl⟩ | ⟨-, -, rfl⟩ | ⟨-, -, -, rfl⟩ | ⟨w, -, hw, -⟩⟩ := step_cases h
    · rw [cycleStore_of_executes_nothing hl hs]; rfl
    · rw [cycleStore_of_executes_nothing hl hs]; rfl
    · rw [cycleStore_of_executes_nothing hl hs]; rfl
    · exact absurd ⟨w, hw⟩ hs

/-- The latest of two runs of stores is looked for in the second first. -/
theorem latestStored_append (xs ys : List (Word × Word)) (a : Nat) :
    latestStored (xs ++ ys) a = (latestStored ys a).or (latestStored xs a) := by
  rw [latestStored, List.reverse_append, List.find?_append, Option.map_or]
  rfl

theorem read_afterStore {m : Memory} (hm : m.wf) (store : Option (Word × Word)) (a : Nat) :
    (afterStore m store).read a = (latestStored store.toList a).getD (m.read a) := by
  cases store with
  | none => rfl
  | some p =>
    have hread : (afterStore m (some p)).read a = if covers p.1 a then byteOfWord p.2 (a - p.1.toNat) else m.read a :=
      Memory.read_writeWord hm _ _ a
    rw [hread]
    by_cases hcovers : covers p.1 a
    · simp [latestStored, hcovers]
    · simp [latestStored, hcovers]

/-- Settles O50: by induction on the cycles, the stores of the first coming before those of the rest. -/
theorem memoryHoldsTheLatestStores : Obligations.MemoryHoldsTheLatestStores := by
  intro k s t a hwf hrun ha
  induction k generalizing s with
  | zero =>
    rw [run_zero] at hrun
    cases hrun
    exact memByte_of_lt ha
  | succ k ih =>
    obtain ⟨u, hu, hk⟩ := run_succ_cases hrun
    have hsize : u.config.memSize = s.config.memSize := by rw [(step_keeps_inputs hu).2]
    have hstores : storesOfRun (k + 1) s = s.cycleStore.toList ++ storesOfRun k u := by
      simp only [storesOfRun, hu]
    rw [ih u (step_keeps_memCanonical hu hwf) hk (hsize ▸ ha), hstores, latestStored_append, step_mem hu, read_afterStore hwf,
      Option.getD_or]

end Sys2Proof.Proofs
end

section
/-! The loader, and what the assembler reads (30_encoding.md R57 to R69). -/
namespace Sys2Proof.Proofs
open Sys2Proof.Machine

/-! ### The loader -/

theorem loadLines_wordTexts (ws : List Word) : loadLines (ws.map wordToText ++ [[]]) = .ok ws := by
  induction ws with
  | nil => rfl
  | cons w ws ih =>
    have hline : loadLine (wordToText w) = .ok (some w) := by
      simp only [loadLine, length_wordToText, if_true, textToWord_wordToText]
    simp only [List.map_cons, List.cons_append, loadLines, hline, ih]

/-- Settles O52: the lines of the emitted text are the texts of the words, and the empty last one is skipped. -/
theorem loaderReadsBackTheEmittedWords : Obligations.LoaderReadsBackTheEmittedWords := by
  intro ws
  rw [loadText, textLines_emitText, loadLines_wordTexts]

/-! ### Register names -/

theorem regNumber_regName (r : Reg) : regNumber (regName r) = some r := by
  revert r
  decide

/-- A name has the number of the place at which it is found, and the name at that place is the one looked for. -/
theorem eq_regName_of_regNumber {t : Text} {r : Reg} (h : regNumber t = some r) : t = regName r := by
  obtain ⟨k, hk, rfl⟩ := Option.map_eq_some_iff.1 h
  obtain ⟨hlt, hfound, -⟩ := List.findIdx?_eq_some_iff_getElem.1 hk
  have hlen : regNames.length = 32 := rfl
  have hk32 : (BitVec.ofNat 5 k).toNat = k := by
    rw [BitVec.toNat_ofNat]
    omega
  rw [regName, hk32, List.getD_eq_getElem _ _ hlt]
  exact (beq_iff_eq.1 hfound).symm

/-- Settles O53: by evaluation from numbers to names, by the search from names to numbers. -/
theorem registerNamesNumberTheRegisters : Obligations.RegisterNamesNumberTheRegisters :=
  ⟨regNumber_regName, fun _ _ => eq_regName_of_regNumber, by decide, by decide, by decide⟩

@[simp] theorem register_regName (r : Reg) : register (regName r) = .ok r := by
  simp only [register, regNumber_regName]

/-! ### Labels -/

theorem labelOperand_of_find {sym : SymbolTable} {label : Text} {target : Nat} (h : sym.find label = some target) :
    labelOperand sym label = .ok target := by
  simp only [labelOperand, h]

theorem labelOperand_of_not_found {sym : SymbolTable} {label : Text} (h : sym.find label = none) :
    labelOperand sym label = .error (.undefinedLabel label) := by
  simp only [labelOperand, h]

/-! ### `j label` (R65) -/

theorem jumpAddress_eq (target : Nat) : jumpAddress target = BitVec.ofNat 26 (target / 4) := by
  rw [jumpAddress, Nat.shiftRight_eq_div_pow]

theorem assembleToken_j (sym : SymbolTable) (pc : Nat) (ops : List Text) :
    assembleToken sym pc ⟨"j".toList, ops⟩ = jumpOperands sym "j".toList ops := rfl

theorem assemble_j_label {sym : SymbolTable} {label : Text} {target : Nat} (h : sym.find label = some target) (pc : Nat)
    (n : Numerals) :
    (assembleToken sym pc ⟨"j".toList, [label]⟩).map (encode n) = .ok (encJ 2 (BitVec.ofNat 26 (target / 4))) := by
  rw [assembleToken_j, jumpOperands, labelOperand_of_find h, ← jumpAddress_eq]
  rfl

/-- Settles O54: the label's address in words, or the error of the label operand. -/
theorem jumpSyntaxRule : Obligations.JumpSyntaxRule := by
  refine fun n sym pc label => ⟨fun target h => assemble_j_label h pc n, fun h => ?_⟩
  rw [assembleToken_j, jumpOperands, labelOperand_of_not_found h]
  rfl

/-! ### `beq rs, rt, label` (R63) -/

theorem assembleToken_beq (sym : SymbolTable) (pc : Nat) (ops : List Text) :
    assembleToken sym pc ⟨"beq".toList, ops⟩ = branchOperands sym pc "beq".toList ops := rfl

/-- A word-granular displacement in reach is kept by the 16 bits of the immediate. -/
theorem toInt_branchImmediate {pc target : Nat} (hpc : pc % 4 = 0) (htarget : target % 4 = 0)
    (hforward : target ≤ pc + 131072) (hback : pc ≤ target + 131068) :
    4 * (branchImmediate target pc).toInt = (target : Int) - ((pc : Int) + 4) := by
  rw [branchImmediate, BitVec.toInt_ofInt_eq_self (by decide) (by omega) (by omega)]
  omega

/-- Settles O55: the displacement is four times the immediate, which the hardware adds to `pc + 4`. -/
theorem assembledBranchReachesItsLabel : Obligations.AssembledBranchReachesItsLabel := by
  refine fun sym pc target label rs rt => ⟨fun h hpc htarget hsize hforward hback => ?_, fun h => ?_⟩
  · refine ⟨branchImmediate target pc, ?_, ?_⟩
    · rw [assembleToken_beq, branchOperands, labelOperand_of_find h, register_regName, register_regName]
      rfl
    · rw [branchTarget_eq_ofInt, toInt_branchImmediate hpc htarget hforward hback]
      apply BitVec.eq_of_toNat_eq
      rw [BitVec.toNat_ofInt, BitVec.toNat_ofNat, BitVec.toNat_ofNat]
      omega
  · rw [assembleToken_beq, branchOperands, labelOperand_of_not_found h, register_regName, register_regName]
    rfl

/-! ### Literals -/

theorem literal_of_decimal {t : Text} {v : Int} (h : decimal t = some v) (mnemonic : Text) : literal mnemonic t = .ok v := by
  simp only [literal, h]

theorem isDigit_of_digitsValue {t : Text} {v : Nat} (h : digitsValue t = some v) : ∀ c ∈ t, c.isDigit = true := by
  unfold digitsValue at h
  split at h
  case isTrue hd => exact List.all_eq_true.1 hd.2.1
  case isFalse => cases h

/-- The characters of a decimal literal. -/
theorem mem_decimal {t : Text} {v : Int} (h : decimal t = some v) : ∀ c ∈ t, c = '-' ∨ c.isDigit = true := by
  unfold decimal at h
  split at h
  case h_1 ds =>
    obtain ⟨_, hds, -⟩ := Option.map_eq_some_iff.1 h
    intro c hc
    exact (List.mem_cons.1 hc).imp_right (isDigit_of_digitsValue hds c)
  case h_2 =>
    obtain ⟨_, hds, -⟩ := Option.map_eq_some_iff.1 h
    exact fun c hc => .inr (isDigit_of_digitsValue hds c hc)

/-! ### `addi rt, rs, imm` (R64) -/

theorem assembleToken_addi (sym : SymbolTable) (pc : Nat) (ops : List Text) :
    assembleToken sym pc ⟨"addi".toList, ops⟩ = addiOperands "addi".toList ops := rfl

/-- Settles O56: the low 16 bits of the literal's value. -/
theorem addImmediateSyntaxRule : Obligations.AddImmediateSyntaxRule := by
  intro n sym pc rt rs imm v h
  refine ⟨BitVec.ofInt 16 v, ?_, ?_⟩
  · rw [BitVec.toNat_ofInt]
    omega
  · rw [assembleToken_addi, addiOperands, literal_of_decimal h, register_regName, register_regName]
    rfl

/-! ### `offset(rs)` (R62) -/

/-- A text without a separator is one piece. -/
theorem pieces_of_forall_not {sep : Char → Bool} {t : Text} (h : ∀ c ∈ t, sep c = false) : pieces sep t = [t] := by
  induction t with
  | nil => rfl
  | cons c t ih =>
    have ih := ih fun d hd => h d (List.mem_cons_of_mem c hd)
    simp [pieces, h c List.mem_cons_self, ih]

theorem all_regName (r : Reg) : ((regName r).all fun c => c != '(' && c != ')') = true := by
  revert r
  decide

theorem ne_paren_of_mem_regName {r : Reg} {c : Char} (hc : c ∈ regName r) : (c == '(') = false ∧ (c == ')') = false := by
  simpa using List.all_eq_true.1 (all_regName r) c hc

theorem pieces_offset {offset : Text} {v : Int} (h : decimal offset = some v) (rest : Text) :
    pieces (· == '(') (offset ++ '(' :: rest) = offset :: pieces (· == '(') rest := by
  refine pieces_append_cons rfl rest offset fun c hc => ?_
  rcases mem_decimal h c hc with rfl | hdigit
  · rfl
  · rw [beq_eq_false_iff_ne]
    rintro rfl
    exact absurd hdigit (by decide)

theorem memOperand_of_decimal {offset : Text} {v : Int} (h : decimal offset = some v) (mnemonic : Text) (rs : Reg) :
    memOperand mnemonic (offset ++ '(' :: regName rs ++ [')']) = .ok (v, rs) := by
  have hopen : pieces (· == '(') (regName rs ++ [')']) = [regName rs ++ [')']] := by
    refine pieces_of_forall_not fun c hc => ?_
    rcases List.mem_append.1 hc with hc | hc
    · exact (ne_paren_of_mem_regName hc).1
    · rw [List.mem_singleton.1 hc]
      rfl
  have hclose : pieces (· == ')') (regName rs ++ [')']) = [regName rs, []] :=
    pieces_append_cons rfl [] _ fun c hc => (ne_paren_of_mem_regName hc).2
  rw [List.append_assoc, List.cons_append, memOperand, pieces_offset h, hopen]
  simp only [hclose, literal_of_decimal h, register_regName]
  rfl

theorem memOperand_unclosed {offset : Text} {v : Int} (h : decimal offset = some v) (mnemonic : Text) (rs : Reg) :
    memOperand mnemonic (offset ++ '(' :: regName rs) = .error (.format mnemonic) := by
  have hopen : pieces (· == '(') (regName rs) = [regName rs] :=
    pieces_of_forall_not fun c hc => (ne_paren_of_mem_regName hc).1
  have hclose : pieces (· == ')') (regName rs) = [regName rs] :=
    pieces_of_forall_not fun c hc => (ne_paren_of_mem_regName hc).2
  rw [memOperand, pieces_offset h, hopen]
  simp only [hclose]

theorem memOperands_of_decimal {offset : Text} {v : Int} (h : decimal offset = some v)
    (mk : Reg → Reg → BitVec 16 → Instr) (mnemonic : Text) (rt rs : Reg) :
    memOperands mk mnemonic [regName rt, offset ++ '(' :: regName rs ++ [')']] = .ok (mk rt rs (BitVec.ofInt 16 v)) := by
  rw [memOperands, register_regName, memOperand_of_decimal h]
  rfl

theorem assembleToken_lw (sym : SymbolTable) (pc : Nat) (ops : List Text) :
    assembleToken sym pc ⟨"lw".toList, ops⟩ = memOperands .lw "lw".toList ops := rfl

theorem assembleToken_sw (sym : SymbolTable) (pc : Nat) (ops : List Text) :
    assembleToken sym pc ⟨"sw".toList, ops⟩ = memOperands .sw "sw".toList ops := rfl

/-- Settles O57: the memory operand with its parenthesis and without. -/
theorem loadWordSyntaxRule : Obligations.LoadWordSyntaxRule := by
  refine fun n sym pc rt rs offset v h => ⟨?_, ?_⟩
  · rw [assembleToken_lw, memOperands_of_decimal h]
    rfl
  · rw [assembleToken_lw, memOperands, register_regName, memOperand_unclosed h]
    rfl

end Sys2Proof.Proofs
end

section
/-! The rules that join encoding, assembly and execution (41_rtype_alu.md, 42_itype.md, 43_jtype.md), and what the assembler emits
(30_encoding.md R57, 95_test_vectors.md S2). -/
namespace Sys2Proof.Proofs
open Sys2Proof.Machine

/-! ### The R-type rules -/

theorem rOperands_regNames (mk : Reg → Reg → Reg → BitVec 5 → Instr) (mnemonic : Text) (rd rs rt : Reg) :
    rOperands mk mnemonic [regName rd, regName rs, regName rt] = .ok (mk rd rs rt 0) := by
  rw [rOperands, register_regName, register_regName, register_regName]
  rfl

/-- What an R-type rule comes to: the decoder's choice by `funct`, the pattern's own fields, the operand form that the mnemonic
selects, the format of the word, and one register written. -/
theorem rTypeRule_intro {name : String} {funct : Numerals → Selector} {pattern : Word}
    {mk : Reg → Reg → Reg → BitVec 5 → Instr} {value : Word → Word → Word}
    (hdecode : ∀ (n : Numerals) (w : Word), n.Legal → (fields w).opcode = 0 → (fields w).funct = funct n →
      decode n w = .instr (mk (fields w).rd (fields w).rs (fields w).rt (fields w).shamt))
    (hpattern : (fields pattern).opcode = 0 ∧ (fields pattern).funct = funct {})
    (hoperands : ∀ sym pc ops, assembleToken sym pc ⟨name.toList, ops⟩ = rOperands mk name.toList ops)
    (hencode : ∀ n rd rs rt, encode n (mk rd rs rt 0) = encR (funct n) rs rt rd)
    (hexec : ∀ s rd rs rt shamt, exec (mk rd rs rt shamt) s =
      .next ((s.writeReg rd (value (s.readReg rs) (s.readReg rt))).setPc (s.pc + 4))) :
    RTypeRule name funct pattern mk value where
  encoding := hdecode
  mask w hw := hdecode {} w (by decide) ((opcode_of_masked (by decide) hw).trans hpattern.1)
    ((funct_of_masked (by decide) hw).trans hpattern.2)
  assembly n sym pc rd rs rt := by
    rw [hoperands, rOperands_regNames, Except.map, hencode]
  execution s rd rs rt shamt := ⟨_, hexec s rd rs rt shamt, writesRegister_writeReg_setPc s rd _⟩

/-- Settles O11: the ALU's own bitwise operations. -/
theorem bitwiseInstructionRules : Obligations.BitwiseInstructionRules :=
  ⟨rTypeRule_intro (fun _ _ => decode_of_fnAnd) (by decide) (fun _ _ _ => rfl) (fun _ _ _ _ => rfl) exec_and,
    rTypeRule_intro (fun _ _ => decode_of_fnOr) (by decide) (fun _ _ _ => rfl) (fun _ _ _ _ => rfl) exec_or,
    rTypeRule_intro (fun _ _ => decode_of_fnNor) (by decide) (fun _ _ _ => rfl) (fun _ _ _ _ => rfl) exec_nor⟩

theorem sub_eq_ofInt (a b : Word) : a - b = BitVec.ofInt 32 ((a.toNat : Int) - b.toNat) := by
  have ha : a.toNat < 2 ^ 32 := a.isLt
  have hb : b.toNat < 2 ^ 32 := b.isLt
  apply BitVec.eq_of_toNat_eq
  rw [BitVec.toNat_sub, BitVec.toNat_ofInt]
  omega

theorem signedValue_eq_toInt (v : Word) : signedValue v = v.toInt := by
  have hv : v.toNat < 2 ^ 32 := v.isLt
  rw [signedValue, BitVec.toInt_eq_toNat_cond]
  split_ifs <;> omega

theorem sltValue_eq (a b : Word) : sltValue a b = if signedValue a < signedValue b then 1 else 0 := by
  simp only [sltValue, signedValue_eq_toInt]

/-- Settles O12: the ALU's sum, difference and comparison as those of the numbers. -/
theorem arithmeticInstructionRules : Obligations.ArithmeticInstructionRules := by
  refine ⟨rTypeRule_intro (fun _ _ _ => decode_of_fnAdd) (by decide) (fun _ _ _ => rfl) (fun _ _ _ _ => rfl) exec_add,
    rTypeRule_intro (fun _ _ => decode_of_fnSub) (by decide) (fun _ _ _ => rfl) (fun _ _ _ _ => rfl)
      fun s rd rs rt shamt => ?_,
    rTypeRule_intro (fun _ _ => decode_of_fnSlt) (by decide) (fun _ _ _ => rfl) (fun _ _ _ _ => rfl)
      fun s rd rs rt shamt => ?_⟩
  · rw [← sub_eq_ofInt, exec_sub]
  · rw [← sltValue_eq, exec_slt]

/-! ### `sw` and `j` -/

/-- Settles O15: the store of O29 at the effective address, after which a load from there reads it back. -/
theorem storeWordRule : Obligations.StoreWordRule := by
  refine ⟨fun n w hn => decode_of_opSw hn, fun w hw => ?_, fun n sym pc rt rs offset v h => ?_, fun s rt rs imm => ?_⟩
  · exact decode_of_opSw (by decide) ((opcode_of_masked (by decide) hw).trans (by decide))
  · rw [assembleToken_sw, memOperands_of_decimal h]
    rfl
  · refine ⟨_, exec_sw s rt rs imm, rfl, fun r => State.memWrite_readReg .., sameOutside_setPc (sameOutside_memWrite ..) _,
      BitVec.toNat_add .., fun k hk hwf hin => memByte_memWrite_add hwf hin _ hk,
      fun a ha => memByte_memWrite_of_not_covers ha s _, fun hout a => ?_, fun rd base off hea hwf hin hrd => ?_⟩
    · rw [State.memWrite_outOfRange (by omega), State.setPc_memByte]
    · refine ⟨_, exec_lw _ rd base off, ?_⟩
      rw [hea, (writesRegister_writeReg_setPc _ rd _).written (by simpa using hrd)]
      exact memRead_memWrite hwf hin _

/-- Settles O17: selected by the fixed opcode 2, and the same target as O18. -/
theorem jumpRule : Obligations.JumpRule := by
  refine ⟨fun n w h => decode_of_opcode_two h n, fun w hw => ?_, fun n sym pc target label h => assemble_j_label h pc n,
    fun s address => ⟨_, exec_j s address, movesPcOnly_jumpTarget s address⟩⟩
  exact decode_of_opcode_two ((opcode_of_masked (by decide) hw).trans (by decide)) {}

/-! ### What the assembler emits -/

theorem exists_of_bind_eq_ok {ε α β : Type} {x : Except ε α} {f : α → Except ε β} {b : β} (h : (x >>= f) = .ok b) :
    ∃ a, x = .ok a ∧ f a = .ok b := by
  cases x with
  | error e => cases h
  | ok a => exact ⟨a, rfl, h⟩

/-- The words of a source are those of its instructions. -/
theorem exists_of_assemble_eq_ok {n : Numerals} {src : Text} {ws : List Word} (h : assemble n src = .ok ws) :
    ∃ is, assembleInstrs src = .ok is ∧ ws = is.map (encode n) := by
  obtain ⟨is, his, hws⟩ := exists_of_bind_eq_ok h
  cases hws
  exact ⟨is, his, rfl⟩

theorem wf_of_rOperands {mk : Reg → Reg → Reg → BitVec 5 → Instr} (hmk : ∀ rd rs rt, (mk rd rs rt 0).wf = true)
    {mnemonic : Text} {ops : List Text} {i : Instr} (h : rOperands mk mnemonic ops = .ok i) : i.wf = true := by
  unfold rOperands at h
  split at h
  · obtain ⟨rd, -, h⟩ := exists_of_bind_eq_ok h
    obtain ⟨rs, -, h⟩ := exists_of_bind_eq_ok h
    obtain ⟨rt, -, h⟩ := exists_of_bind_eq_ok h
    cases h
    exact hmk rd rs rt
  · cases h

theorem wf_of_memOperands {mk : Reg → Reg → BitVec 16 → Instr} (hmk : ∀ rt rs imm, (mk rt rs imm).wf = true)
    {mnemonic : Text} {ops : List Text} {i : Instr} (h : memOperands mk mnemonic ops = .ok i) : i.wf = true := by
  unfold memOperands at h
  split at h
  · obtain ⟨rt, -, h⟩ := exists_of_bind_eq_ok h
    obtain ⟨m, -, h⟩ := exists_of_bind_eq_ok h
    cases h
    exact hmk ..
  · cases h

theorem wf_of_branchOperands {sym : SymbolTable} {pc : Nat} {mnemonic : Text} {ops : List Text} {i : Instr}
    (h : branchOperands sym pc mnemonic ops = .ok i) : i.wf = true := by
  unfold branchOperands at h
  split at h
  · obtain ⟨rs, -, h⟩ := exists_of_bind_eq_ok h
    obtain ⟨rt, -, h⟩ := exists_of_bind_eq_ok h
    obtain ⟨target, -, h⟩ := exists_of_bind_eq_ok h
    cases h
    rfl
  · cases h

theorem wf_of_addiOperands {mnemonic : Text} {ops : List Text} {i : Instr} (h : addiOperands mnemonic ops = .ok i) :
    i.wf = true := by
  unfold addiOperands at h
  split at h
  · obtain ⟨rt, -, h⟩ := exists_of_bind_eq_ok h
    obtain ⟨rs, -, h⟩ := exists_of_bind_eq_ok h
    obtain ⟨v, -, h⟩ := exists_of_bind_eq_ok h
    cases h
    rfl
  · cases h

theorem wf_of_jumpOperands {sym : SymbolTable} {mnemonic : Text} {ops : List Text} {i : Instr}
    (h : jumpOperands sym mnemonic ops = .ok i) : i.wf = true := by
  unfold jumpOperands at h
  split at h
  · obtain ⟨target, -, h⟩ := exists_of_bind_eq_ok h
    cases h
    rfl
  · cases h

/-- The assembler writes `shamt = 0` and no other field that the form restricts. -/
theorem wf_of_assembleToken {sym : SymbolTable} {pc : Nat} {t : Token} {i : Instr} (h : assembleToken sym pc t = .ok i) :
    i.wf = true := by
  obtain ⟨m, -, h⟩ := exists_of_bind_eq_ok h
  cases m with
  | add | sub | and | or | nor | slt => exact wf_of_rOperands (fun _ _ _ => rfl) h
  | beq => exact wf_of_branchOperands h
  | addi => exact wf_of_addiOperands h
  | lw | sw => exact wf_of_memOperands (fun _ _ _ => rfl) h
  | j => exact wf_of_jumpOperands h

theorem wf_of_assembleTokens {sym : SymbolTable} {ts : List (Nat × Token)} {is : List Instr}
    (h : assembleTokens sym ts = .ok is) : ∀ i ∈ is, i.wf = true := by
  induction ts generalizing is with
  | nil => cases h; exact fun _ hi => by cases hi
  | cons t ts ih =>
    obtain ⟨i, hi, h⟩ := exists_of_bind_eq_ok h
    obtain ⟨is', his, h⟩ := exists_of_bind_eq_ok h
    cases h
    exact List.forall_mem_cons.2 ⟨wf_of_assembleToken hi, ih his⟩

/-- Settles O58: each word is an instruction's, which decodes to it by O6. -/
theorem assembledWordsDecodeToTheirInstructions : Obligations.AssembledWordsDecodeToTheirInstructions := by
  intro n src ws hn h
  obtain ⟨is, his, rfl⟩ := exists_of_assemble_eq_ok h
  refine ⟨is, his, ?_, ?_⟩
  · rw [List.map_map]
    exact List.map_congr_left fun i _ => decodeInvertsEncode n i hn
  · obtain ⟨r, -, hr⟩ := exists_of_bind_eq_ok his
    exact wf_of_assembleTokens hr

/-- Settles O20: the cycle as for O19, the count by evaluation, and no emitted word unknown because each is an instruction's. -/
theorem unknownOpcodeIsReportedAndSkipped : Obligations.UnknownOpcodeIsReportedAndSkipped := by
  refine ⟨fun s w hs hop => ?cycle, by decide, fun n src ws hn h w hw => ?emitted⟩
  case cycle =>
    exact step_reportsAndSkips hs
      (execWord_of_unknownOpcode (s := s.clearReport) ((decode_eq_unknownOpcode_iff _ w).2 hop))
  case emitted =>
    obtain ⟨is, -, rfl⟩ := exists_of_assemble_eq_ok h
    obtain ⟨i, -, rfl⟩ := List.mem_map.1 hw
    by_contra hop
    cases (decodeInvertsEncode n i hn).symm.trans ((decode_eq_unknownOpcode_iff n _).2 hop)

end Sys2Proof.Proofs
end
